-- ==== Sys2Proof/Word.lean ====
section
/-! DEFINITION. The word types of the block (R9 of 00_scope.md): unsigned bytes, unsigned 16-bit codes, byte
sequences, and the zero-extension from the first to the second. -/

namespace Sys2Proof

/-- `u8`: an unsigned 8-bit value, bit 0 least significant (R9). -/
abbrev Byte := BitVec 8

/-- `u16`: an unsigned 16-bit value (R9); the width of the integrity code (R6, `CRC_WIDTH`). -/
abbrev U16 := BitVec 16

/-- A byte sequence, indices from 0 (R10). -/
abbrev Bytes := List Byte

/-- `zext_16(b)`: a byte widened to 16 bits with zeros (R9). -/
def zext16 (b : Byte) : U16 := b.setWidth 16

end Sys2Proof
end

