-- ==== Sys2Proof/Config.lean ====
section
/-! DEFINITION. What is fixed when an instance of the block is built: the parameters of R7 and R8, the constants of
R6 and R130/R131, and the one free value of the model. -/

namespace Sys2Proof

/-- The parameters of an instance (R7, R8 of 00_scope.md): fixed when it is built, neither read out nor written by any
operation (R24 of 10_state.md). -/
structure Config where
  /-- `END`, the frame delimiter (R62). -/
  endByte : Byte
  /-- `ESC`, the escape byte (R62). -/
  escByte : Byte
  /-- `ESC_END`, the substitute code that stands for a data byte equal to `END` (R62). -/
  escEndByte : Byte
  /-- `ESC_ESC`, the substitute code that stands for a data byte equal to `ESC` (R62). -/
  escEscByte : Byte
  /-- `MAX_BUF`, the capacity of the reassembly buffer in decoded bytes; `none` is the spec's infinity (R8). -/
  maxBuf : Option Nat
  deriving DecidableEq, Repr

namespace Config

/-- The default parameters. The four bytes are the defaults of R7. `MAX_BUF` has no mandated default (R8);
DESIGN CHOICE: unbounded, the source's own behaviour (notes/assumptions/2.md, unsafe). -/
def default : Config where
  endByte := 0xC0#8
  escByte := 0xDB#8
  escEndByte := 0xDC#8
  escEscByte := 0xDD#8
  maxBuf := none

/-- "The four values must be pairwise distinct" (R7). -/
def wf (c : Config) : Bool :=
  c.endByte != c.escByte && c.endByte != c.escEndByte && c.endByte != c.escEscByte &&
  c.escByte != c.escEndByte && c.escByte != c.escEscByte && c.escEndByte != c.escEscByte

/-- `n <= MAX_BUF` (R8; R28 (i) of 10_state.md): every length fits an unbounded buffer. -/
def fits (c : Config) (n : Nat) : Bool :=
  match c.maxBuf with
  | none => true
  | some m => decide (n ≤ m)

/-- `HDR_LEN` (R6). -/
def hdrLen : Nat := 2

/-- `TRL_LEN` (R6). -/
def trlLen : Nat := 2

/-- `MIN_BLOB`, the length of the shortest decodable blob (R6). -/
def minBlob : Nat := 4

/-- `CRC_INIT` (R6). -/
def crcInitValue : U16 := 0xFFFF#16

/-- `CRC_XOROUT` (R6). -/
def crcXorOut : U16 := 0xFFFF#16

/-- `CRC_POLY` in normal form (R7, R130). PRESUMED by the spec itself: general knowledge, G1
(notes/assumptions/13.md). -/
def crcPoly : U16 := 0x1021#16

/-- `CRC_POLY_REFLECTED`, `CRC_POLY` with its 16 bits reversed (R7, R131). -/
def crcPolyReflected : U16 := 0x8408#16

/-- FREE VALUE. What CRC.CHECK answers for a blob of fewer than 4 bytes. R136 of 43_crc16.md gives CRC.CHECK only
blobs of 4 or more bytes and states no result below that, so nothing constrains this one Boolean.
DESIGN CHOICE, safe (notes/assumptions/8.md). -/
opaque crcCheckShort : Bytes → Bool

end Config

end Sys2Proof
end

