-- ==== Sys2Proof/Syntax.lean ====
section
/-! DEFINITION. The operations of the block, one constructor per row of spec/opcode_table.json (R3), and the encoded
form in which an operation reaches the block (R60, R63, R64, R68). -/

namespace Sys2Proof

/-- The operations of the block (R3 of 00_scope.md). Operands are those of the operation's own rule. -/
inductive Instr where
  /-- RX.END: the receiver's step on the wire byte `END` (R100). -/
  | rxEnd
  /-- RX.ESC: the receiver's step on the wire byte `ESC` (R101). -/
  | rxEsc
  /-- RX.ESC_END: the receiver's step on the wire byte `ESC_END` (R102). -/
  | rxEscEnd
  /-- RX.ESC_ESC: the receiver's step on the wire byte `ESC_ESC` (R103). -/
  | rxEscEsc
  /-- RX.DATA: the receiver's step on any other wire byte (R104). -/
  | rxData (w : Byte)
  /-- TXB.END: the escape of a blob byte equal to `END` (R110). -/
  | txbEnd
  /-- TXB.ESC: the escape of a blob byte equal to `ESC` (R111). -/
  | txbEsc
  /-- TXB.LIT: a blob byte that needs no escape (R112). -/
  | txbLit (b : Byte)
  /-- RESET (R170). -/
  | reset
  /-- FEED: a chunk of wire bytes in, framer events out (R105). -/
  | feed (chunk : Bytes)
  /-- SEND: a blob in, a wire packet out (R113). -/
  | send (blob : Bytes)
  /-- ENCODE: header and payload in, blob out (R120). -/
  | encode (sapId msgId : Byte) (payload : Bytes)
  /-- DECODE: blob in, codec result out (R121). -/
  | decode (blob : Bytes)
  /-- CRC16: the integrity code of a byte sequence (R135). -/
  | crc16 (bytes : Bytes)
  /-- TX_FRAME: the outbound data path (R140). -/
  | txFrame (sapId msgId : Byte) (payload : Bytes)
  /-- RX_POLL: the inbound data path (R141). -/
  | rxPoll (chunk : Bytes)
  /-- CRC.INIT: start a computation (R132). -/
  | crcInit
  /-- CRC.UPDATE: absorb one byte (R133). -/
  | crcUpdate (acc : U16) (b : Byte)
  /-- CRC.FINAL: produce the code (R134). -/
  | crcFinal (acc : U16)
  /-- CRC.CHECK: the verifier (R136). -/
  | crcCheck (blob : Bytes)
  deriving DecidableEq, Repr

/-- The formats an operation is selected in (R60 of 30_encoding.md): by the value of a received wire byte, by the
value of a blob byte, or by the operation selector. -/
inductive Format where
  | rxsym
  | txsym
  | opsel
  deriving DecidableEq, Repr

/-- The typed operands of a command-level operation, in the shapes of R68's operand column. -/
inductive Args where
  /-- No operand: RESET, CRC.INIT. -/
  | none
  /-- One byte sequence: FEED, SEND, DECODE, CRC16, RX_POLL, CRC.CHECK. -/
  | bytes (s : Bytes)
  /-- `sap_id`, `msg_id`, `payload`: ENCODE, TX_FRAME. -/
  | frame (sapId msgId : Byte) (payload : Bytes)
  /-- Accumulator and byte: CRC.UPDATE. -/
  | accByte (acc : U16) (b : Byte)
  /-- Accumulator: CRC.FINAL. -/
  | acc (acc : U16)
  deriving DecidableEq, Repr

/-- The encoded form of one operation: a symbol of one of the two byte formats, or a 4-bit selector with its operands
(R60, R68). The operands of a selector stay typed: R68 numbers the operations and gives their operands no bits. -/
inductive Request where
  /-- One wire byte arriving at the receiver (R63). -/
  | rxsym (w : Byte)
  /-- One blob byte presented to the transmit framer (R64). -/
  | txsym (b : Byte)
  /-- A command-level operation (R68). -/
  | opsel (sel : BitVec 4) (args : Args)
  deriving DecidableEq, Repr

/-- The format of a request. -/
def Request.format : Request → Format
  | .rxsym _ => .rxsym
  | .txsym _ => .txsym
  | .opsel _ _ => .opsel

/-- The format of an operation's row in the opcode table. -/
def Instr.format : Instr → Format
  | .rxEnd => .rxsym
  | .rxEsc => .rxsym
  | .rxEscEnd => .rxsym
  | .rxEscEsc => .rxsym
  | .rxData _ => .rxsym
  | .txbEnd => .txsym
  | .txbEsc => .txsym
  | .txbLit _ => .txsym
  | .reset => .opsel
  | .feed _ => .opsel
  | .send _ => .opsel
  | .encode _ _ _ => .opsel
  | .decode _ => .opsel
  | .crc16 _ => .opsel
  | .txFrame _ _ _ => .opsel
  | .rxPoll _ => .opsel
  | .crcInit => .opsel
  | .crcUpdate _ _ => .opsel
  | .crcFinal _ => .opsel
  | .crcCheck _ => .opsel

end Sys2Proof
end

