-- ==== Sys2Proof/WellFormed.lean ====
section
/-! DEFINITION. Which terms of `Instr` are operations of the block: the operand restrictions of the rules. -/

namespace Sys2Proof

/-- The four special wire-byte values (R62). -/
def Config.isSpecial (c : Config) (w : Byte) : Bool :=
  w == c.endByte || w == c.escByte || w == c.escEndByte || w == c.escEscByte

/-- The two blob-byte values that are escaped (R64). -/
def Config.isEscaped (c : Config) (b : Byte) : Bool :=
  b == c.endByte || b == c.escByte

/-- The operand restrictions of the rules: RX.DATA carries none of the four special bytes (R104), TXB.LIT neither
`END` nor `ESC` (R112). Every other operand type is unrestricted. (R136's `len >= 4` restricts what CRC.CHECK's result
is stated for: see `Instr.resultStated`.) -/
def Instr.wf (c : Config) : Instr → Bool
  | .rxEnd => true
  | .rxEsc => true
  | .rxEscEnd => true
  | .rxEscEsc => true
  | .rxData w => !c.isSpecial w
  | .txbEnd => true
  | .txbEsc => true
  | .txbLit b => !c.isEscaped b
  | .reset => true
  | .feed _ => true
  | .send _ => true
  | .encode _ _ _ => true
  | .decode _ => true
  | .crc16 _ => true
  | .txFrame _ _ _ => true
  | .rxPoll _ => true
  | .crcInit => true
  | .crcUpdate _ _ => true
  | .crcFinal _ => true
  | .crcCheck _ => true

/-- Whether the spec states the operation's result: CRC.CHECK's only for blobs of `MIN_BLOB` or more bytes (R136). -/
def Instr.resultStated : Instr → Bool
  | .rxEnd => true
  | .rxEsc => true
  | .rxEscEnd => true
  | .rxEscEsc => true
  | .rxData _ => true
  | .txbEnd => true
  | .txbEsc => true
  | .txbLit _ => true
  | .reset => true
  | .feed _ => true
  | .send _ => true
  | .encode _ _ _ => true
  | .decode _ => true
  | .crc16 _ => true
  | .txFrame _ _ _ => true
  | .rxPoll _ => true
  | .crcInit => true
  | .crcUpdate _ _ => true
  | .crcFinal _ => true
  | .crcCheck blob => decide (Config.minBlob ≤ blob.length)

end Sys2Proof
end

