-- ==== Sys2Proof/Decode.lean ====
section
/-! DEFINITION. Decoding a request into an operation, total and rejecting by name, and the encoder (R63, R64, R68 of
30_encoding.md); the reading of an opcode-table word that the host's probe uses. -/

namespace Sys2Proof

/-- Why a request is no operation (R68). -/
inductive DecodeError where
  /-- A selector 0xC-0xF: "reserved, not an operation" (R68). -/
  | reservedSelector (sel : BitVec 4)
  /-- The operands are not of the shape R68 gives the selector. -/
  | operandShape (sel : BitVec 4) (args : Args)
  deriving DecidableEq, Repr

/-- The class of a received wire byte, rows tried top to bottom (R63). -/
def classifyRx (c : Config) (w : Byte) : Instr :=
  if w = c.endByte then .rxEnd
  else if w = c.escByte then .rxEsc
  else if w = c.escEndByte then .rxEscEnd
  else if w = c.escEscByte then .rxEscEsc
  else .rxData w

/-- The class of a blob byte, rows tried top to bottom (R64). -/
def classifyTx (c : Config) (b : Byte) : Instr :=
  if b = c.endByte then .txbEnd
  else if b = c.escByte then .txbEsc
  else .txbLit b

/-- The operation a selector and its operands stand for, row by row of R68's table. -/
def decodeOpsel (sel : BitVec 4) (args : Args) : Except DecodeError Instr :=
  match sel.toNat, args with
  | 0x0, .none => .ok .reset
  | 0x1, .bytes chunk => .ok (.feed chunk)
  | 0x2, .bytes blob => .ok (.send blob)
  | 0x3, .frame sapId msgId payload => .ok (.encode sapId msgId payload)
  | 0x4, .bytes blob => .ok (.decode blob)
  | 0x5, .bytes s => .ok (.crc16 s)
  | 0x6, .frame sapId msgId payload => .ok (.txFrame sapId msgId payload)
  | 0x7, .bytes chunk => .ok (.rxPoll chunk)
  | 0x8, .none => .ok .crcInit
  | 0x9, .accByte acc b => .ok (.crcUpdate acc b)
  | 0xA, .acc acc => .ok (.crcFinal acc)
  | 0xB, .bytes blob => .ok (.crcCheck blob)
  | n, args => if 0xC ≤ n then .error (.reservedSelector sel) else .error (.operandShape sel args)

/-- Decoding, total on every request. -/
def decode (c : Config) : Request → Except DecodeError Instr
  | .rxsym w => .ok (classifyRx c w)
  | .txsym b => .ok (classifyTx c b)
  | .opsel sel args => decodeOpsel sel args

/-- The request an operation is encoded as (R63, R64, R68). -/
def encode (c : Config) : Instr → Request
  | .rxEnd => .rxsym c.endByte
  | .rxEsc => .rxsym c.escByte
  | .rxEscEnd => .rxsym c.escEndByte
  | .rxEscEsc => .rxsym c.escEscByte
  | .rxData w => .rxsym w
  | .txbEnd => .txsym c.endByte
  | .txbEsc => .txsym c.escByte
  | .txbLit b => .txsym b
  | .reset => .opsel 0x0#4 .none
  | .feed chunk => .opsel 0x1#4 (.bytes chunk)
  | .send blob => .opsel 0x2#4 (.bytes blob)
  | .encode sapId msgId payload => .opsel 0x3#4 (.frame sapId msgId payload)
  | .decode blob => .opsel 0x4#4 (.bytes blob)
  | .crc16 s => .opsel 0x5#4 (.bytes s)
  | .txFrame sapId msgId payload => .opsel 0x6#4 (.frame sapId msgId payload)
  | .rxPoll chunk => .opsel 0x7#4 (.bytes chunk)
  | .crcInit => .opsel 0x8#4 .none
  | .crcUpdate acc b => .opsel 0x9#4 (.accByte acc b)
  | .crcFinal acc => .opsel 0xA#4 (.acc acc)
  | .crcCheck blob => .opsel 0xB#4 (.bytes blob)

/-! ### Opcode-table words -/

/-- The operands of a selector when every operand is zero: zero scalars, and the shortest byte sequence the operand's
type allows (none; four zero bytes for CRC.CHECK, whose operand is `len >= 4` in R136). -/
def zeroArgs (sel : BitVec 4) : Args :=
  match sel.toNat with
  | 0x1 => .bytes []
  | 0x2 => .bytes []
  | 0x3 => .frame 0 0 []
  | 0x4 => .bytes []
  | 0x5 => .bytes []
  | 0x6 => .frame 0 0 []
  | 0x7 => .bytes []
  | 0x9 => .accByte 0 0
  | 0xA => .acc 0
  | 0xB => .bytes [0, 0, 0, 0]
  | _ => .none

/-- The request an opcode-table word stands for. The table lists the rows of three separate formats whose values
overlap; DESIGN CHOICE (notes/assumptions/7.md): a word below 16 is a selector of format OPSEL with zero operands, any
other byte is a wire byte of format RXSYM; a wider word is no row of the table. -/
def tableRequest (nbits w : Nat) : Option Request :=
  if 8 < nbits ∨ 256 ≤ w then none
  else if w < 16 then some (.opsel (BitVec.ofNat 4 w) (zeroArgs (BitVec.ofNat 4 w)))
  else some (.rxsym (BitVec.ofNat 8 w))

/-- The operation the decoder reads from an opcode-table word, with the default parameters of R7. -/
def decodeTableWord (nbits w : Nat) : Option Instr :=
  match tableRequest nbits w with
  | none => none
  | some r =>
    match decode Config.default r with
    | .ok i => some i
    | .error _ => none

end Sys2Proof
end

