-- ==== Sys2Proof/Machine/State.lean ====
section
/-! DEFINITION. The state of one block instance (R20 of 10_state.md), the values on its ports (R34, R35), the reasons
a step can stop, and the state after reset (R30). -/

namespace Sys2Proof.Machine

/-- `rx_mode` (R20). -/
inductive RxMode where
  /-- The next wire byte is classified on its own. -/
  | normal
  /-- The previous wire byte was `ESC`; the next one is a substitute code. -/
  | escaped
  /-- The frame in progress was discarded; wire bytes up to the next `END` are ignored. -/
  | drop
  deriving DecidableEq, Repr

/-- The block's own state between operations (R20): `rx_mode`, and `rx_buf` with `rx_len` as the one list
`buf = rx_buf[0:rx_len]` that R25 tells a model to use (notes/assumptions/5.md). -/
structure RxState where
  /-- `rx_mode`. -/
  mode : RxMode
  /-- `rx_buf[0:rx_len]`: index is address, length is `rx_len`. -/
  buf : Bytes
  deriving DecidableEq, Repr

/-- The reset state of the receiver: `rx_mode = NORMAL`, `buf = []` (R30, R170). -/
def RxState.reset : RxState where
  mode := .normal
  buf := []

/-- The reason of a `Drop` event (R35). -/
inductive DropReason where
  /-- `ESC` followed by a byte that is no substitute code (R153). -/
  | badEscape
  /-- A decoded byte arrived while the buffer was full (R154). -/
  | overflow
  deriving DecidableEq, Repr

/-- A framer event (R35 (a)). -/
inductive FramerEvent where
  /-- A complete blob. -/
  | blob (bytes : Bytes)
  /-- The frame in progress was discarded. -/
  | drop (reason : DropReason)
  deriving DecidableEq, Repr

/-- The Frame value (R34). -/
structure Frame where
  sapId : Byte
  msgId : Byte
  payload : Bytes
  trailer : U16
  deriving DecidableEq, Repr

/-- A codec result (R35 (b)). -/
inductive CodecResult where
  /-- A valid Frame. -/
  | frame (f : Frame)
  /-- Fewer than 4 bytes (R151). -/
  | tooShort
  /-- The recomputed code differs from the received trailer (R152). -/
  | integrityMismatch
  deriving DecidableEq, Repr

/-- A poll event (R35 (c)). -/
inductive PollEvent where
  /-- The codec result of one blob. -/
  | codec (r : CodecResult)
  /-- A framer-level discard, passed through (D6). -/
  | drop (reason : DropReason)
  deriving DecidableEq, Repr

/-- One event or result an operation returned: an entry of the run's observation (R183 (iii)). -/
inductive Output where
  /-- On `rx_out`, from an RX operation or FEED. -/
  | framer (e : FramerEvent)
  /-- On `rx_out`, from RX_POLL. -/
  | poll (e : PollEvent)
  /-- Contiguous wire bytes: a packet of SEND or TX_FRAME, the escape image of a TXB operation. -/
  | wire (bytes : Bytes)
  /-- ENCODE's result. -/
  | blob (bytes : Bytes)
  /-- DECODE's result, on `rx_out` (R165). -/
  | codec (r : CodecResult)
  /-- An integrity code: the result of CRC16 and CRC.FINAL. -/
  | code (t : U16)
  /-- A CRC accumulator: the result of CRC.INIT and CRC.UPDATE. -/
  | acc (acc : U16)
  /-- CRC.CHECK's result. -/
  | check (valid : Bool)
  deriving DecidableEq, Repr

/-- Why the machine would stop with a fault. No operation of the block faults (R183 (v)). -/
inductive Fault where
  /-- Raised by `memRead` alone, for a cell that holds no value (R25, R41). No operation issues such a read, so no
  step answers it. Safe. -/
  | unwrittenCell (addr : Nat)
  deriving DecidableEq, Repr

/-- Why there is no meaning for what was asked. -/
inductive Refusal where
  /-- Raised by an arm of `exec` whose operation has no meaning yet; no arm does. Safe. -/
  | notModelled (mnemonic : String)
  /-- Raised by `step` for a request that decodes to no operation (R68): a reserved selector, or operands that are
  not of the selector's shape. Safe (notes/assumptions/9.md). -/
  | undecodable (e : DecodeError)
  deriving DecidableEq, Repr

/-- One block instance with its environment. `rx` is the whole of the block's state (R20); `config` are its
parameters (R7, R8; notes/assumptions/1.md); `inbox` and `outputs` are the MODEL's own, the owner's operations still
to come and everything returned so far (R183; notes/assumptions/3.md and 4.md). -/
structure State where
  config : Config
  rx : RxState
  /-- What the owner is still to issue, next one first. -/
  inbox : List Request
  /-- What the operations returned, oldest first. -/
  outputs : List Output
  deriving DecidableEq, Repr

/-- The machine right after construction or reset (R30, R170), with the default parameters, nothing asked of it and
nothing returned by it. -/
def State.reset : State where
  config := Config.default
  rx := RxState.reset
  inbox := []
  outputs := []

end Sys2Proof.Machine
end

