-- ==== Sys2Proof/Machine/Flags.lean ====
section
/-! DEFINITION. The conditions the block tests and the numbers the spec gives its names: the two flag-like conditions
(R23 of 10_state.md), the full buffer (R45 of 20_memory.md), the encoding of `rx_mode` (R33) and the codes of the
outcomes (R150 of 60_exceptions.md). -/

namespace Sys2Proof.Machine

/-- *Escape pending*: `rx_mode = ESCAPED` (R23). -/
def escapePending (rx : RxState) : Bool := rx.mode == .escaped

/-- *Dropping*: `rx_mode = DROP` (R23). -/
def dropping (rx : RxState) : Bool := rx.mode == .drop

/-- `rx_len = MAX_BUF`, never true when `MAX_BUF` is infinite (R45). -/
def bufferFull (c : Config) (rx : RxState) : Bool := c.maxBuf == some rx.buf.length

/-- The two-bit encoding of `rx_mode` (R33). -/
def RxMode.code : RxMode → BitVec 2
  | .normal => 0
  | .escaped => 1
  | .drop => 2

/-- The numeric code of a discard (R150). -/
def DropReason.code : DropReason → Nat
  | .badEscape => 3
  | .overflow => 4

/-- The numeric code of a codec result (R150). -/
def CodecResult.code : CodecResult → Nat
  | .frame _ => 0
  | .tooShort => 1
  | .integrityMismatch => 2

/-- The numeric code of an outcome (R150). -/
def PollEvent.code : PollEvent → Nat
  | .codec r => r.code
  | .drop reason => reason.code

end Sys2Proof.Machine
end

