-- ==== Sys2Proof/Machine/Operands.lean ====
section
/-! DEFINITION. Operand assembly: slices (R10 of 00_scope.md), the trailer (R66 of 30_encoding.md), the fields of a
blob (R61, R67) and the escape map of a blob byte (R64). -/

namespace Sys2Proof.Machine

/-- `s[i:j]`, the half-open slice of the indices `i <= k < j` (R10). -/
def slice (s : Bytes) (i j : Nat) : Bytes := (s.take j).drop i

/-- `t[7:0]` (R66). -/
def trailerLo (t : U16) : Byte := t.extractLsb' 0 8

/-- `t[15:8]` (R66). -/
def trailerHi (t : U16) : Byte := t.extractLsb' 8 8

/-- `zext_16(lo) or (zext_16(hi) << 8)` (R66). -/
def assembleTrailer (lo hi : Byte) : U16 := zext16 lo ||| (zext16 hi <<< 8)

/-- `blob[i]`. The rules index only below the blob's length; the 0 read elsewhere is never used. -/
def byteAt (s : Bytes) (i : Nat) : Byte := s.getD i 0

/-- `sap_id` of a blob of 4 or more bytes (R67). -/
def blobSapId (blob : Bytes) : Byte := byteAt blob 0

/-- `msg_id` of a blob of 4 or more bytes (R67). -/
def blobMsgId (blob : Bytes) : Byte := byteAt blob 1

/-- `payload = blob[2:N-2]` (R67). -/
def blobPayload (blob : Bytes) : Bytes := slice blob 2 (blob.length - 2)

/-- `blob[0:N-2]`, what the integrity code covers: header and payload (R61). -/
def blobBody (blob : Bytes) : Bytes := slice blob 0 (blob.length - 2)

/-- The received trailer of a blob of 4 or more bytes, low byte at `N-2` (R42, R66). -/
def blobTrailer (blob : Bytes) : U16 :=
  assembleTrailer (byteAt blob (blob.length - 2)) (byteAt blob (blob.length - 1))

/-- `esc(END)` (R110). -/
def escOfEnd (c : Config) : Bytes := [c.escByte, c.escEndByte]

/-- `esc(ESC)` (R111). -/
def escOfEsc (c : Config) : Bytes := [c.escByte, c.escEscByte]

/-- `esc(b)` of a byte that needs no escape (R112). -/
def escOfLit (b : Byte) : Bytes := [b]

/-- The escape map `esc` of a blob byte, rows tried top to bottom (R64). -/
def escByteImage (c : Config) (b : Byte) : Bytes :=
  if b = c.endByte then escOfEnd c
  else if b = c.escByte then escOfEsc c
  else escOfLit b

/-- The escape of a blob, byte after byte (R65). -/
def escapeBytes (c : Config) : Bytes → Bytes
  | [] => []
  | b :: bs => escByteImage c b ++ escapeBytes c bs

end Sys2Proof.Machine
end

