-- ==== Sys2Proof/Machine/Ops.lean ====
section
/-! DEFINITION. The shared operations: the memory primitives (R41 of 20_memory.md), `Append` (R45), `Extract` (R46),
raising an error outcome (R12, R158), emitting results, taking the owner's next operation, and the views of the
ports (R143 of 44_pipeline.md). -/

namespace Sys2Proof.Machine

/-- What one wire byte does: the receive state after it and the at most one event it raises (R157 (ii)). -/
abbrev ByteResult := RxState × Option FramerEvent

/-! ### The reassembly buffer as a memory -/

/-- The buffer as address and byte pairs. A cell at or above `rx_len` holds no value and is not listed (R25). -/
def cellsFrom (a : Nat) : Bytes → List Host.Cell
  | [] => []
  | b :: bs => (a, b) :: cellsFrom (a + 1) bs

/-- The listed cells of the buffer, addresses from 0 (R40). -/
def RxState.cells (rx : RxState) : List Host.Cell := cellsFrom 0 rx.buf

/-- The canonical form of a memory: addresses strictly rising. -/
def Memory.wf : List Host.Cell → Bool
  | [] => true
  | [_] => true
  | x :: y :: rest => decide (x.1 < y.1) && Memory.wf (y :: rest)

/-- `MemRead(addr, 1)` (R41): a cell that holds no value faults; no operation reads one. -/
def memRead (rx : RxState) (addr : Nat) : Except Fault Byte :=
  match rx.buf[addr]? with
  | some b => .ok b
  | none => .error (.unwrittenCell addr)

/-- `MemWrite(rx_len, 1, v)` and the `rx_len <- rx_len + 1` that always follows it (R41). -/
def memPush (rx : RxState) (v : Byte) : RxState := { rx with buf := rx.buf ++ [v] }

/-! ### Raising an error outcome -/

/-- Taking a framer error (R158, R153, R154): the frame in progress is discarded, the mode set, the event raised.
Nothing is saved and control goes nowhere; R159: there is nothing to return from. -/
def raiseDrop (mode : RxMode) (reason : DropReason) : ByteResult :=
  ({ mode := mode, buf := [] }, some (.drop reason))

/-! ### The two buffer primitives -/

/-- `Append(b)` (R45). -/
def append (c : Config) (rx : RxState) (b : Byte) : ByteResult :=
  if bufferFull c rx then raiseDrop .drop .overflow
  else ({ memPush rx b with mode := .normal }, none)

/-- `Extract()` (R46): the buffer's bytes, and the state with the buffer empty. -/
def extract (rx : RxState) : Bytes × RxState := (rx.buf, { rx with buf := [] })

/-! ### Results -/

/-- `emit` (R12), for the results of an operation that leaves the receive state alone. -/
def State.emit (s : State) (o : Output) : State := { s with outputs := s.outputs ++ [o] }

/-- The effect of a receive operation: its new receive state and its events in order. -/
def State.receive (s : State) (rx : RxState) (es : List Output) : State :=
  { s with rx := rx, outputs := s.outputs ++ es }

/-- The source's contract of `feed`: the blobs of an event sequence, the `Drop` events left out (R35, R105). -/
def blobsOf : List FramerEvent → List Bytes
  | [] => []
  | .blob b :: es => b :: blobsOf es
  | .drop _ :: es => blobsOf es

/-! ### The owner's next operation -/

/-- The request the owner issues next, and the state once it is taken (R183). -/
def State.fetch (s : State) : Option (Request × State) :=
  match s.inbox with
  | [] => none
  | r :: rest => some (r, { s with inbox := rest })

/-- The request that stands for an opcode-table word; for a word that is no row, one that no decoder accepts. -/
def fetchWordRequest (nbits w : Nat) : Request :=
  match tableRequest nbits w with
  | some r => r
  | none => .opsel 0xF#4 .none

/-! ### The ports (R143) -/

/-- The abstract ports of the block (R143). -/
inductive Port where
  | rxIn
  | rxOut
  | txIn
  | txOut
  | rst
  deriving DecidableEq, Repr

/-- The port an operation's operands arrive on: `rx_in`, `tx_in` and `rst` as R143 lists them, the wire byte of an
RX operation on `rx_in`. R143 names no port for the operands of the other operations. DESIGN CHOICE
(notes/assumptions/18.md, safe): the blob byte of a TXB operation issued on its own, like the operands of ENCODE,
DECODE and the CRC operations, is the owner's direct call and arrives on none. -/
def inPort : Instr → Option Port
  | .rxEnd => some .rxIn
  | .rxEsc => some .rxIn
  | .rxEscEnd => some .rxIn
  | .rxEscEsc => some .rxIn
  | .rxData _ => some .rxIn
  | .txbEnd => none
  | .txbEsc => none
  | .txbLit _ => none
  | .reset => some .rst
  | .feed _ => some .rxIn
  | .send _ => some .txIn
  | .encode _ _ _ => none
  | .decode _ => none
  | .crc16 _ => none
  | .txFrame _ _ _ => some .txIn
  | .rxPoll _ => some .rxIn
  | .crcInit => none
  | .crcUpdate _ _ => none
  | .crcFinal _ => none
  | .crcCheck _ => none

/-- The port an output leaves on: events (R143) and every outcome of R150, a codec result of DECODE too, on `rx_out`
(R165); wire bytes on `tx_out` (R143). DESIGN CHOICE (notes/assumptions/18.md, safe): the wire bytes of a TXB operation
issued on its own leave on `tx_out` as well, and results for which R143 names no port (a blob of ENCODE, what the CRC
operations return) go back to the caller. -/
def Output.port : Output → Option Port
  | .framer _ => some .rxOut
  | .poll _ => some .rxOut
  | .wire _ => some .txOut
  | .blob _ => none
  | .codec _ => some .rxOut
  | .code _ => none
  | .acc _ => none
  | .check _ => none

/-- What has left on `rx_out`, in order (R165). -/
def State.rxOut (s : State) : List Output := s.outputs.filter (fun o => o.port == some .rxOut)

/-- The wire bytes of one output. -/
def Output.wireBytes : Output → Bytes
  | .framer _ => []
  | .poll _ => []
  | .wire bytes => bytes
  | .blob _ => []
  | .codec _ => []
  | .code _ => []
  | .acc _ => []
  | .check _ => []

/-- The wire bytes handed to the transport, in order, each packet contiguous (R113 (iii), R180). -/
def State.txOut (s : State) : Bytes := s.outputs.flatMap Output.wireBytes

end Sys2Proof.Machine
end

