-- ==== Sys2Proof/Machine/Crc.lean ====
section
/-! DEFINITION. The CRC-16 trailer generator and verifier (43_crc16.md). -/

namespace Sys2Proof.Machine

/-- One of the 8 steps of CRC.UPDATE: shift right, and the reflected polynomial if bit 0 was set (R133). -/
def crcShift (a : U16) : U16 :=
  if a.getLsbD 0 then (a >>> 1) ^^^ Config.crcPolyReflected else a >>> 1

/-- `repeat n times` of R133's pseudocode. -/
def crcShifts : Nat → U16 → U16
  | 0, a => a
  | n + 1, a => crcShifts n (crcShift a)

/-- CRC.INIT (R132). -/
def crcInit : U16 := Config.crcInitValue

/-- CRC.UPDATE (R133): the byte goes into the low byte of the register, then 8 steps. -/
def crcUpdate (acc : U16) (b : Byte) : U16 := crcShifts 8 (acc ^^^ zext16 b)

/-- CRC.FINAL (R134): the one's complement. -/
def crcFinal (acc : U16) : U16 := acc ^^^ Config.crcXorOut

/-- The accumulator after a byte sequence, first byte first. -/
def crcAbsorb (acc : U16) : Bytes → U16
  | [] => acc
  | b :: bs => crcAbsorb (crcUpdate acc b) bs

/-- CRC16 (R135). -/
def crc16 (bytes : Bytes) : U16 := crcFinal (crcAbsorb crcInit bytes)

/-- CRC.CHECK of a blob of 4 or more bytes: recompute and compare (R136). -/
def crcCheck (blob : Bytes) : Bool := crc16 (blobBody blob) == blobTrailer blob

/-- The meaning of CRC.INIT (R132). -/
def execCrcInit (s : State) : Host.Outcome State Fault Refusal :=
  .next (s.emit (.acc crcInit))

/-- The meaning of CRC.UPDATE (R133). -/
def execCrcUpdate (acc : U16) (b : Byte) (s : State) : Host.Outcome State Fault Refusal :=
  .next (s.emit (.acc (crcUpdate acc b)))

/-- The meaning of CRC.FINAL (R134). -/
def execCrcFinal (acc : U16) (s : State) : Host.Outcome State Fault Refusal :=
  .next (s.emit (.code (crcFinal acc)))

/-- The meaning of CRC16 (R135). -/
def execCrc16 (bytes : Bytes) (s : State) : Host.Outcome State Fault Refusal :=
  .next (s.emit (.code (crc16 bytes)))

/-- The meaning of CRC.CHECK (R136). DESIGN CHOICE (notes/assumptions/8.md, safe): for fewer than 4 bytes, where R136
states no result, the answer is the free value. -/
def execCrcCheck (blob : Bytes) (s : State) : Host.Outcome State Fault Refusal :=
  .next (s.emit (.check
    (if blob.length < Config.minBlob then Config.crcCheckShort blob else crcCheck blob)))

end Sys2Proof.Machine
end

