-- ==== Sys2Proof/Machine/Codec.lean ====
section
/-! DEFINITION. The frame codec (42_frame_codec.md): ENCODE and DECODE. Pure. -/

namespace Sys2Proof.Machine

/-- ENCODE's result (R120): header and payload, then their integrity code, low byte first. -/
def encodeBlob (sapId msgId : Byte) (payload : Bytes) : Bytes :=
  let body := [sapId, msgId] ++ payload
  let t := crc16 body
  body ++ [trailerLo t, trailerHi t]

/-- DECODE's result (R121): `TooShort` is tested first, then the trailer; an error carries nothing of the blob. -/
def decodeBlob (blob : Bytes) : CodecResult :=
  if blob.length < Config.minBlob then .tooShort
  else if crcCheck blob then
    .frame { sapId := blobSapId blob, msgId := blobMsgId blob, payload := blobPayload blob,
             trailer := blobTrailer blob }
  else .integrityMismatch

/-- The meaning of ENCODE (R120). -/
def execEncode (sapId msgId : Byte) (payload : Bytes) (s : State) : Host.Outcome State Fault Refusal :=
  .next (s.emit (.blob (encodeBlob sapId msgId payload)))

/-- The meaning of DECODE (R121). -/
def execDecode (blob : Bytes) (s : State) : Host.Outcome State Fault Refusal :=
  .next (s.emit (.codec (decodeBlob blob)))

end Sys2Proof.Machine
end

