-- ==== Sys2Proof/Machine/Receive.lean ====
section
/-! DEFINITION. The receive framer (40_framer_receive.md): the five byte operations and FEED. -/

namespace Sys2Proof.Machine

/-- RX.END (R100). -/
def rxEndStep (rx : RxState) : ByteResult :=
  match rx.mode with
  | .normal =>
    match rx.buf with
    | [] => ({ rx with mode := .normal }, none)
    | _ :: _ => ({ (extract rx).2 with mode := .normal }, some (.blob (extract rx).1))
  | .escaped => raiseDrop .normal .badEscape
  | .drop => ({ mode := .normal, buf := [] }, none)

/-- RX.ESC (R101). -/
def rxEscStep (rx : RxState) : ByteResult :=
  match rx.mode with
  | .normal => ({ rx with mode := .escaped }, none)
  | .escaped => raiseDrop .drop .badEscape
  | .drop => (rx, none)

/-- RX.ESC_END (R102). -/
def rxEscEndStep (c : Config) (rx : RxState) : ByteResult :=
  match rx.mode with
  | .normal => append c rx c.escEndByte
  | .escaped => append c rx c.endByte
  | .drop => (rx, none)

/-- RX.ESC_ESC (R103). -/
def rxEscEscStep (c : Config) (rx : RxState) : ByteResult :=
  match rx.mode with
  | .normal => append c rx c.escEscByte
  | .escaped => append c rx c.escByte
  | .drop => (rx, none)

/-- RX.DATA (R104). -/
def rxDataStep (c : Config) (rx : RxState) (w : Byte) : ByteResult :=
  match rx.mode with
  | .normal => append c rx w
  | .escaped => raiseDrop .drop .badEscape
  | .drop => (rx, none)

/-- One wire byte, by its class: the body of FEED's loop (R105). -/
def feedByte (c : Config) (rx : RxState) (w : Byte) : ByteResult :=
  if w = c.endByte then rxEndStep rx
  else if w = c.escByte then rxEscStep rx
  else if w = c.escEndByte then rxEscEndStep c rx
  else if w = c.escEscByte then rxEscEscStep c rx
  else rxDataStep c rx w

/-- FEED (R105): the byte operations of a chunk in index order; the receive state after it and its events in order. -/
def feedChunk (c : Config) (rx : RxState) : Bytes → RxState × List FramerEvent
  | [] => (rx, [])
  | w :: ws =>
    let r := feedByte c rx w
    let rest := feedChunk c r.1 ws
    (rest.1, r.2.toList ++ rest.2)

/-- A byte operation as an operation of its own: its event, if any, goes out as a framer event. -/
def State.receiveByte (s : State) (r : ByteResult) : State :=
  s.receive r.1 (r.2.toList.map .framer)

/-- The meaning of RX.END (R100). -/
def execRxEnd (s : State) : Host.Outcome State Fault Refusal :=
  .next (s.receiveByte (rxEndStep s.rx))

/-- The meaning of RX.ESC (R101). -/
def execRxEsc (s : State) : Host.Outcome State Fault Refusal :=
  .next (s.receiveByte (rxEscStep s.rx))

/-- The meaning of RX.ESC_END (R102). -/
def execRxEscEnd (s : State) : Host.Outcome State Fault Refusal :=
  .next (s.receiveByte (rxEscEndStep s.config s.rx))

/-- The meaning of RX.ESC_ESC (R103). -/
def execRxEscEsc (s : State) : Host.Outcome State Fault Refusal :=
  .next (s.receiveByte (rxEscEscStep s.config s.rx))

/-- The meaning of RX.DATA (R104). -/
def execRxData (w : Byte) (s : State) : Host.Outcome State Fault Refusal :=
  .next (s.receiveByte (rxDataStep s.config s.rx w))

/-- The meaning of FEED (R105). -/
def execFeed (chunk : Bytes) (s : State) : Host.Outcome State Fault Refusal :=
  let r := feedChunk s.config s.rx chunk
  .next (s.receive r.1 (r.2.map .framer))

end Sys2Proof.Machine
end

