-- ==== Sys2Proof/Machine/Transmit.lean ====
section
/-! DEFINITION. The transmit framer (41_framer_transmit.md): the escape of one blob byte and SEND. Stateless. -/

namespace Sys2Proof.Machine

/-- SEND's result, the wire packet of a blob (R113, format PKT of R65): a leading `END`, the escaped blob, a
terminating `END`. -/
def wirePacket (c : Config) (blob : Bytes) : Bytes :=
  [c.endByte] ++ escapeBytes c blob ++ [c.endByte]

/-- The meaning of TXB.END (R110). -/
def execTxbEnd (s : State) : Host.Outcome State Fault Refusal :=
  .next (s.emit (.wire (escOfEnd s.config)))

/-- The meaning of TXB.ESC (R111). -/
def execTxbEsc (s : State) : Host.Outcome State Fault Refusal :=
  .next (s.emit (.wire (escOfEsc s.config)))

/-- The meaning of TXB.LIT (R112). -/
def execTxbLit (b : Byte) (s : State) : Host.Outcome State Fault Refusal :=
  .next (s.emit (.wire (escOfLit b)))

/-- The meaning of SEND (R113). -/
def execSend (blob : Bytes) (s : State) : Host.Outcome State Fault Refusal :=
  .next (s.emit (.wire (wirePacket s.config blob)))

end Sys2Proof.Machine
end

