-- ==== Sys2Proof/Machine/Pipeline.lean ====
section
/-! DEFINITION. The two data paths (44_pipeline.md), TX_FRAME and RX_POLL, and RESET (R170 of
70_reset_and_hazards.md). -/

namespace Sys2Proof.Machine

/-- What RX_POLL emits for one framer event (R141): a blob's codec result, a discard as it is. -/
def pollEvent : FramerEvent → PollEvent
  | .blob b => .codec (decodeBlob b)
  | .drop reason => .drop reason

/-- The meaning of TX_FRAME (R140): SEND of ENCODE. -/
def execTxFrame (sapId msgId : Byte) (payload : Bytes) (s : State) : Host.Outcome State Fault Refusal :=
  .next (s.emit (.wire (wirePacket s.config (encodeBlob sapId msgId payload))))

/-- The meaning of RX_POLL (R141): FEED, and DECODE of every blob, in order. -/
def execRxPoll (chunk : Bytes) (s : State) : Host.Outcome State Fault Refusal :=
  let r := feedChunk s.config s.rx chunk
  .next (s.receive r.1 (r.2.map (fun e => .poll (pollEvent e))))

/-- The meaning of RESET (R170): empty buffer, NORMAL mode, no event; the parameters keep their values. -/
def execReset (s : State) : Host.Outcome State Fault Refusal :=
  .next { s with rx := RxState.reset }

end Sys2Proof.Machine
end

