-- ==== Sys2Proof/Machine/Dispatch.lean ====
section
/-! DEFINITION. One arm per operation (R3 of 00_scope.md). -/

namespace Sys2Proof.Machine

def exec (i : Instr) (s : State) : Host.Outcome State Fault Refusal :=
  match i with
  | .rxEnd => Sys2Proof.Machine.execRxEnd s
  | .rxEsc => Sys2Proof.Machine.execRxEsc s
  | .rxEscEnd => Sys2Proof.Machine.execRxEscEnd s
  | .rxEscEsc => Sys2Proof.Machine.execRxEscEsc s
  | .rxData w => Sys2Proof.Machine.execRxData w s
  | .txbEnd => Sys2Proof.Machine.execTxbEnd s
  | .txbEsc => Sys2Proof.Machine.execTxbEsc s
  | .txbLit b => Sys2Proof.Machine.execTxbLit b s
  | .reset => Sys2Proof.Machine.execReset s
  | .feed chunk => Sys2Proof.Machine.execFeed chunk s
  | .send blob => Sys2Proof.Machine.execSend blob s
  | .encode sapId msgId payload => Sys2Proof.Machine.execEncode sapId msgId payload s
  | .decode blob => Sys2Proof.Machine.execDecode blob s
  | .crc16 bytes => Sys2Proof.Machine.execCrc16 bytes s
  | .txFrame sapId msgId payload => Sys2Proof.Machine.execTxFrame sapId msgId payload s
  | .rxPoll chunk => Sys2Proof.Machine.execRxPoll chunk s
  | .crcInit => Sys2Proof.Machine.execCrcInit s
  | .crcUpdate acc b => Sys2Proof.Machine.execCrcUpdate acc b s
  | .crcFinal acc => Sys2Proof.Machine.execCrcFinal acc s
  | .crcCheck blob => Sys2Proof.Machine.execCrcCheck blob s

end Sys2Proof.Machine
end

