-- ==== Sys2Proof/Machine/Step.lean ====
section
/-! DEFINITION. One step of an instance: the owner's next operation, whole (R49, R183). -/

namespace Sys2Proof.Machine

/-- One step: take the owner's next request, decode it, run it. With nothing asked, nothing changes (R183 (i)). -/
def step (s : State) : Host.Outcome State Fault Refusal :=
  match s.fetch with
  | none => .next s
  | some (r, s') =>
    match decode s.config r with
    | .ok i => exec i s'
    | .error e => .refused (.undecodable e)

/-- `s` with the request of an opcode-table word put before everything the owner still asks, so that the next step
runs it (notes/assumptions/3.md). -/
def State.withFetchWord (s : State) (nbits w : Nat) : State :=
  { s with inbox := fetchWordRequest nbits w :: s.inbox }

end Sys2Proof.Machine
end

