-- ==== Sys2Proof/Machine/Run.lean ====
section
/-! DEFINITION. A run: a finite sequence of operations from a stated start state (R183 (iii) of
70_reset_and_hazards.md), and any number of steps. -/

namespace Sys2Proof.Machine

/-- `f` after `o`, if `o` is a next state; a stop stays. -/
def andThen (o : Host.Outcome State Fault Refusal) (f : State → Host.Outcome State Fault Refusal) :
    Host.Outcome State Fault Refusal :=
  match o with
  | .next s => f s
  | .fault r => .fault r
  | .refused r => .refused r

/-- The operations of a run one after the other, each seeing the state the one before it left (R51 (iii)). -/
def runOps : List Instr → State → Host.Outcome State Fault Refusal
  | [], s => .next s
  | i :: is, s => andThen (exec i s) (runOps is)

/-- `n` steps of the machine, stopping where a step stops. -/
def runSteps : Nat → State → Host.Outcome State Fault Refusal
  | 0, s => .next s
  | n + 1, s => andThen (step s) (runSteps n)

/-- The observation of a run (R183 (iii)): the sequence of events and results, and the final `(rx_mode, buf)`. -/
def State.observation (s : State) : List Output × RxMode × Bytes := (s.outputs, s.rx.mode, s.rx.buf)

end Sys2Proof.Machine
end

