-- ==== Sys2Proof/Safety.lean ====
section
/-! DEFINITION. What holds of an instance after every operation (R28, R34, R35, R107), in the terms claims use. -/

namespace Sys2Proof.Machine

/-- A valid Frame: its trailer is the integrity code of its header and payload (R34). -/
def Frame.valid (f : Frame) : Bool := f.trailer == crc16 ([f.sapId, f.msgId] ++ f.payload)

/-- A codec result the block may output: any Frame in it is valid (R34). -/
def CodecResult.legal : CodecResult → Bool
  | .frame f => f.valid
  | .tooShort => true
  | .integrityMismatch => true

/-- An output the block may have made: a blob of the framer has between 1 and `MAX_BUF` bytes (R35, R107 (iv)), a
Frame is valid (R34). -/
def Output.legal (c : Config) : Output → Bool
  | .framer (.blob b) => decide (1 ≤ b.length) && c.fits b.length
  | .framer (.drop _) => true
  | .poll (.codec r) => r.legal
  | .poll (.drop _) => true
  | .wire _ => true
  | .blob _ => true
  | .codec r => r.legal
  | .code _ => true
  | .acc _ => true
  | .check _ => true

/-- `rx_len <= MAX_BUF` (R28 (i)). -/
abbrev State.bounded (s : State) : Prop := s.config.fits s.rx.buf.length = true

/-- `rx_mode = DROP` implies `rx_len = 0` (R28 (ii)). -/
abbrev State.dropHoldsNothing (s : State) : Prop := s.rx.mode = .drop → s.rx.buf = []

/-- The invariant of an instance: its framing bytes are pairwise distinct (R7), its buffer is within bounds and empty
while dropping (R28 (i), (ii)), and everything it has output is legal (R34, R35). -/
abbrev State.Inv (s : State) : Prop :=
  s.config.wf = true ∧ s.bounded ∧ s.dropHoldsNothing ∧ ∀ o ∈ s.outputs, o.legal s.config = true

/-- A step that goes on: it answers a next state. -/
def goesOn (o : Host.Outcome State Fault Refusal) : Bool :=
  match o with
  | .next _ => true
  | .fault _ => false
  | .refused _ => false

end Sys2Proof.Machine
end

