-- ==== Sys2Proof/Certificates/Slice0/Obligations.lean ====
section
/-! DEFINITION. The statements for the provers. Three notions the spec's text uses are written here afresh, so that a
statement does not lean on the model's own version of them: the escape map of R64, its inverse of R67, and the outcomes
of R150. -/

open Sys2Proof Sys2Proof.Machine

namespace Sys2Proof.Statements

/-- The concatenated images of a byte sequence under the escape map of R64. -/
def escaped (c : Config) (bs : Bytes) : Bytes :=
  bs.flatMap (fun b =>
    if b = c.endByte then [c.escByte, c.escEndByte]
    else if b = c.escByte then [c.escByte, c.escEscByte]
    else [b])

/-- The data bytes of the wire bytes between two delimiters: an escape pair is one byte, and an `ESC` that no
substitute code follows makes the content bad (R67, R69 (a), R70). -/
def unescape (c : Config) : Bytes → Option Bytes
  | [] => some []
  | [w] => if w = c.escByte then none else some [w]
  | w :: v :: rest =>
    if w = c.escByte then
      if v = c.escEndByte then (unescape c rest).map (c.endByte :: ·)
      else if v = c.escEscByte then (unescape c rest).map (c.escByte :: ·)
      else none
    else (unescape c (v :: rest)).map (w :: ·)

/-- An outcome of the table of R150: a Frame, TooShort, IntegrityMismatch or a Drop. -/
def isOutcome : Output → Bool
  | .framer (.blob _) => false
  | .framer (.drop _) => true
  | .poll _ => true
  | .wire _ => false
  | .blob _ => false
  | .codec _ => true
  | .code _ => false
  | .acc _ => false
  | .check _ => false

end Sys2Proof.Statements

open Sys2Proof.Statements

/-! ### Reset (10_state.md section 3, 70_reset_and_hazards.md section 1) -/

/-- R30, R171: after construction the buffer is empty, the mode NORMAL, both flag-like conditions 0. The inbox and
the outputs are the model's own fields (notes/assumptions/3.md and 4.md). -/
def Obligations.ResetStateIsEmptyAndNormal : Prop :=
  State.reset.rx.mode = .normal ∧ State.reset.rx.buf = [] ∧
  escapePending State.reset.rx = false ∧ dropping State.reset.rx = false ∧
  State.reset.inbox = [] ∧ State.reset.outputs = []

/-- R170: RESET empties the buffer and sets NORMAL mode, whatever the state, reports nothing and changes nothing
else; it is idempotent, and it leaves the receive state that an `END` byte leaves. -/
def Obligations.ResetRestoresTheResetState : Prop :=
  ∀ s : State,
    decode s.config (.opsel 0x0#4 .none) = .ok .reset ∧
    exec .reset s = .next { s with rx := ⟨.normal, []⟩ } ∧
    (∀ t, exec .reset s = .next t → exec .reset t = .next t) ∧
    (∀ t u, exec .reset s = .next t → exec .rxEnd s = .next u → u.rx = t.rx)

/-! ### The receive framer (40_framer_receive.md) -/

/-- R100: RX.END closes the frame in every mode; it alone among the byte operations emits a blob, and a blob has
between 1 and `MAX_BUF` bytes. -/
def Obligations.EndClosesTheFrameInEveryMode : Prop :=
  ∀ s : State,
    decode s.config (.rxsym s.config.endByte) = .ok .rxEnd ∧
    (s.rx.mode = .normal → s.rx.buf = [] →
      exec .rxEnd s = .next { s with rx := ⟨.normal, []⟩ }) ∧
    (s.rx.mode = .normal → s.rx.buf ≠ [] →
      exec .rxEnd s =
        .next { s with rx := ⟨.normal, []⟩, outputs := s.outputs ++ [.framer (.blob s.rx.buf)] }) ∧
    (s.rx.mode = .escaped →
      exec .rxEnd s =
        .next { s with rx := ⟨.normal, []⟩, outputs := s.outputs ++ [.framer (.drop .badEscape)] }) ∧
    (s.rx.mode = .drop → exec .rxEnd s = .next { s with rx := ⟨.normal, []⟩ }) ∧
    (∀ t b, s.bounded → exec .rxEnd s = .next t → t.outputs = s.outputs ++ [.framer (.blob b)] →
      1 ≤ b.length ∧ s.config.fits b.length = true) ∧
    (∀ i t b, i = .rxEsc ∨ i = .rxEscEnd ∨ i = .rxEscEsc ∨ (∃ w, i = .rxData w) →
      exec i s = .next t → Output.framer (.blob b) ∈ t.outputs → Output.framer (.blob b) ∈ s.outputs)

/-- R101: RX.ESC opens an escape in NORMAL mode and leaves the buffer alone, is a bad escape in ESCAPED mode, and is
ignored in DROP mode, where the `END` after it still ends the drop. -/
def Obligations.EscOpensAnEscapeOrIsBad : Prop :=
  ∀ s : State,
    (s.config.wf = true → decode s.config (.rxsym s.config.escByte) = .ok .rxEsc) ∧
    (s.rx.mode = .normal → exec .rxEsc s = .next { s with rx := ⟨.escaped, s.rx.buf⟩ }) ∧
    (s.rx.mode = .escaped →
      exec .rxEsc s =
        .next { s with rx := ⟨.drop, []⟩, outputs := s.outputs ++ [.framer (.drop .badEscape)] }) ∧
    (s.rx.mode = .drop →
      exec .rxEsc s = .next s ∧
      runOps [.rxEsc, .rxEnd] s = .next { s with rx := ⟨.normal, []⟩ })

/-- R102: RX.ESC_END yields the data byte `END` after `ESC`, itself in NORMAL mode, nothing in DROP mode; a full
buffer overflows either way; and it is the only wire byte that puts an `END` into the buffer. -/
def Obligations.EscEndYieldsTheDelimiterByte : Prop :=
  ∀ s : State,
    (s.config.wf = true → decode s.config (.rxsym s.config.escEndByte) = .ok .rxEscEnd) ∧
    (s.rx.mode = .escaped → s.config.maxBuf ≠ some s.rx.buf.length →
      exec .rxEscEnd s = .next { s with rx := ⟨.normal, s.rx.buf ++ [s.config.endByte]⟩ }) ∧
    (s.rx.mode = .normal → s.config.maxBuf ≠ some s.rx.buf.length →
      exec .rxEscEnd s = .next { s with rx := ⟨.normal, s.rx.buf ++ [s.config.escEndByte]⟩ }) ∧
    (s.rx.mode ≠ .drop → s.config.maxBuf = some s.rx.buf.length →
      exec .rxEscEnd s =
        .next { s with rx := ⟨.drop, []⟩, outputs := s.outputs ++ [.framer (.drop .overflow)] }) ∧
    (s.rx.mode = .drop → exec .rxEscEnd s = .next s) ∧
    (s.config.wf = true → ∀ w i t, decode s.config (.rxsym w) = .ok i → exec i s = .next t →
      s.config.endByte ∉ s.rx.buf → s.config.endByte ∈ t.rx.buf →
      i = .rxEscEnd ∧ s.rx.mode = .escaped)

/-- R103: RX.ESC_ESC yields the data byte `ESC` after `ESC`, itself in NORMAL mode, nothing in DROP mode; a full
buffer overflows either way; and it is the only wire byte that puts an `ESC` into the buffer. -/
def Obligations.EscEscYieldsTheEscapeByte : Prop :=
  ∀ s : State,
    (s.config.wf = true → decode s.config (.rxsym s.config.escEscByte) = .ok .rxEscEsc) ∧
    (s.rx.mode = .escaped → s.config.maxBuf ≠ some s.rx.buf.length →
      exec .rxEscEsc s = .next { s with rx := ⟨.normal, s.rx.buf ++ [s.config.escByte]⟩ }) ∧
    (s.rx.mode = .normal → s.config.maxBuf ≠ some s.rx.buf.length →
      exec .rxEscEsc s = .next { s with rx := ⟨.normal, s.rx.buf ++ [s.config.escEscByte]⟩ }) ∧
    (s.rx.mode ≠ .drop → s.config.maxBuf = some s.rx.buf.length →
      exec .rxEscEsc s =
        .next { s with rx := ⟨.drop, []⟩, outputs := s.outputs ++ [.framer (.drop .overflow)] }) ∧
    (s.rx.mode = .drop → exec .rxEscEsc s = .next s) ∧
    (s.config.wf = true → ∀ w i t, decode s.config (.rxsym w) = .ok i → exec i s = .next t →
      s.config.escByte ∉ s.rx.buf → s.config.escByte ∈ t.rx.buf →
      i = .rxEscEsc ∧ s.rx.mode = .escaped)

/-- R104: RX.DATA, on a byte that is none of the four special ones, is appended in NORMAL mode or overflows, is a bad
escape in ESCAPED mode and is not stored, and is ignored in DROP mode. -/
def Obligations.OtherBytesAreAppendedOrBad : Prop :=
  ∀ (s : State) (w : Byte), (Instr.rxData w).wf s.config = true →
    decode s.config (.rxsym w) = .ok (.rxData w) ∧
    (s.rx.mode = .normal → s.config.maxBuf ≠ some s.rx.buf.length →
      exec (.rxData w) s = .next { s with rx := ⟨.normal, s.rx.buf ++ [w]⟩ }) ∧
    (s.rx.mode = .normal → s.config.maxBuf = some s.rx.buf.length →
      exec (.rxData w) s =
        .next { s with rx := ⟨.drop, []⟩, outputs := s.outputs ++ [.framer (.drop .overflow)] }) ∧
    (s.rx.mode = .escaped →
      exec (.rxData w) s =
        .next { s with rx := ⟨.drop, []⟩, outputs := s.outputs ++ [.framer (.drop .badEscape)] }) ∧
    (s.rx.mode = .drop → exec (.rxData w) s = .next s)

/-- R106, the complete transition table: every wire byte is classified and taken in one step, and each (mode, byte)
pair has the row's buffer, mode and event. (DROP with a non-`END` byte leaves everything as it was; the table's empty
buffer in that row is R28 (ii).) -/
def Obligations.ReceiveTransitionTable : Prop :=
  ∀ (s : State) (w : Byte), s.config.wf = true →
    ∃ i t, decode s.config (.rxsym w) = .ok i ∧ exec i s = .next t ∧
      (s.rx.mode = .normal → w = s.config.endByte → s.rx.buf.length = 0 →
        t = { s with rx := ⟨.normal, []⟩ }) ∧
      (s.rx.mode = .normal → w = s.config.endByte → 0 < s.rx.buf.length →
        t = { s with rx := ⟨.normal, []⟩, outputs := s.outputs ++ [.framer (.blob s.rx.buf)] }) ∧
      (s.rx.mode = .normal → w = s.config.escByte → t = { s with rx := ⟨.escaped, s.rx.buf⟩ }) ∧
      (s.rx.mode = .normal → w ≠ s.config.endByte → w ≠ s.config.escByte →
        s.config.maxBuf ≠ some s.rx.buf.length → t = { s with rx := ⟨.normal, s.rx.buf ++ [w]⟩ }) ∧
      (s.rx.mode = .normal → w ≠ s.config.endByte → w ≠ s.config.escByte →
        s.config.maxBuf = some s.rx.buf.length →
        t = { s with rx := ⟨.drop, []⟩, outputs := s.outputs ++ [.framer (.drop .overflow)] }) ∧
      (s.rx.mode = .escaped → w = s.config.escEndByte → s.config.maxBuf ≠ some s.rx.buf.length →
        t = { s with rx := ⟨.normal, s.rx.buf ++ [s.config.endByte]⟩ }) ∧
      (s.rx.mode = .escaped → w = s.config.escEscByte → s.config.maxBuf ≠ some s.rx.buf.length →
        t = { s with rx := ⟨.normal, s.rx.buf ++ [s.config.escByte]⟩ }) ∧
      (s.rx.mode = .escaped → w = s.config.escEndByte ∨ w = s.config.escEscByte →
        s.config.maxBuf = some s.rx.buf.length →
        t = { s with rx := ⟨.drop, []⟩, outputs := s.outputs ++ [.framer (.drop .overflow)] }) ∧
      (s.rx.mode = .escaped → w = s.config.endByte →
        t = { s with rx := ⟨.normal, []⟩, outputs := s.outputs ++ [.framer (.drop .badEscape)] }) ∧
      (s.rx.mode = .escaped → w ≠ s.config.endByte → w ≠ s.config.escEndByte → w ≠ s.config.escEscByte →
        t = { s with rx := ⟨.drop, []⟩, outputs := s.outputs ++ [.framer (.drop .badEscape)] }) ∧
      (s.rx.mode = .drop → w = s.config.endByte → t = { s with rx := ⟨.normal, []⟩ }) ∧
      (s.rx.mode = .drop → w ≠ s.config.endByte → t = s ∧ (s.dropHoldsNothing → t.rx.buf = []))

/-- R105: FEED is the byte operations of its bytes, in index order, each on the state the one before it left; an
empty chunk changes nothing; two chunks are their concatenation; the source's return value is its blobs, the discards
left out. -/
def Obligations.FeedRunsItsBytesInOrder : Prop :=
  ∀ s : State,
    (∀ chunk, decode s.config (.opsel 0x1#4 (.bytes chunk)) = .ok (.feed chunk)) ∧
    exec (.feed []) s = .next s ∧
    (∀ w ws, ∃ i t, decode s.config (.rxsym w) = .ok i ∧ exec i s = .next t ∧
      exec (.feed (w :: ws)) s = exec (.feed ws) t) ∧
    (∀ c₁ c₂, ∃ t, exec (.feed c₁) s = .next t ∧ exec (.feed (c₁ ++ c₂)) s = exec (.feed c₂) t) ∧
    (∀ es : List FramerEvent, blobsOf es = es.filterMap (fun e =>
      match e with
      | .blob b => some b
      | .drop _ => none))

/-- R47, R105 (ii), R141 (iv): however a byte sequence is cut into chunks, feeding or polling the chunks in order
leaves the state, and emits the events, of the whole. -/
def Obligations.ChunkBoundariesCarryNoMeaning : Prop :=
  ∀ (s : State) (chunks : List Bytes),
    runOps (chunks.map .feed) s = exec (.feed chunks.flatten) s ∧
    runOps (chunks.map .rxPoll) s = exec (.rxPoll chunks.flatten) s

/-- R45: Append to a buffer with room stores the byte at address `rx_len`, leaves every other cell alone, and counts
it; to a full buffer it discards the frame, enters DROP mode and raises Overflow. -/
def Obligations.AppendStoresAtTheLength : Prop :=
  ∀ (c : Config) (rx : RxState) (b : Byte),
    (c.maxBuf = some rx.buf.length → append c rx b = (⟨.drop, []⟩, some (.drop .overflow))) ∧
    (c.maxBuf ≠ some rx.buf.length →
      (append c rx b).2 = none ∧ (append c rx b).1.mode = .normal ∧
      (append c rx b).1.buf.length = rx.buf.length + 1 ∧
      memRead (append c rx b).1 rx.buf.length = .ok b ∧
      ∀ a, a ≠ rx.buf.length → memRead (append c rx b).1 a = memRead rx a)

/-- R46: Extract returns the bytes of all cells below `rx_len` in index order and leaves the buffer empty. -/
def Obligations.ExtractReadsAllAndClears : Prop :=
  ∀ rx : RxState,
    (extract rx).1.length = rx.buf.length ∧
    (∀ a (h : a < (extract rx).1.length), memRead rx a = .ok (extract rx).1[a]) ∧
    (extract rx).2 = { rx with buf := [] }

/-- R45, R154: the bound counts decoded bytes, an escape pair as one. From the reset state the escaped form of a
sequence of at most `MAX_BUF` bytes fills the buffer with it and its `END` delivers it; a longer one is discarded with
exactly one Overflow, and the bytes after the overflow raise nothing more. -/
def Obligations.BufferCapacityIsExact : Prop :=
  ∀ (s : State) (m : Nat) (blob : Bytes), s.config.wf = true → s.config.maxBuf = some m →
    s.rx = RxState.reset →
    (blob.length ≤ m →
      exec (.feed (escaped s.config blob)) s = .next { s with rx := ⟨.normal, blob⟩ } ∧
      (blob ≠ [] → exec (.feed (escaped s.config blob ++ [s.config.endByte])) s =
        .next { s with outputs := s.outputs ++ [.framer (.blob blob)] })) ∧
    (m < blob.length →
      exec (.feed (escaped s.config blob)) s =
        .next { s with rx := ⟨.drop, []⟩, outputs := s.outputs ++ [.framer (.drop .overflow)] } ∧
      exec (.feed (escaped s.config blob ++ [s.config.endByte])) s =
        .next { s with outputs := s.outputs ++ [.framer (.drop .overflow)] })

/-- R8, R176: with an unbounded buffer, escaped bytes that no `END` follows are all kept, however many, and nothing
is emitted. -/
def Obligations.UnboundedBufferKeepsEverything : Prop :=
  ∀ (s : State) (data : Bytes), s.config.wf = true → s.config.maxBuf = none → s.rx.mode = .normal →
    exec (.feed (escaped s.config data)) s = .next { s with rx := ⟨.normal, s.rx.buf ++ data⟩ }

/-- R106, R159: in DROP mode bytes other than `END` change nothing and raise nothing. -/
def Obligations.DropModeIgnoresAllButEnd : Prop :=
  ∀ (s : State) (chunk : Bytes), s.rx.mode = .drop → s.config.endByte ∉ chunk →
    exec (.feed chunk) s = .next s ∧ exec (.rxPoll chunk) s = .next s

/-- R28 (iii), R52, R107 (iii): whatever came before, after an `END` the receive state is the reset state. -/
def Obligations.EndAlwaysResynchronises : Prop :=
  ∀ (s : State) (chunk : Bytes),
    (∃ t, exec (.feed (chunk ++ [s.config.endByte])) s = .next t ∧ t.rx = RxState.reset) ∧
    (∃ t, exec (.rxPoll (chunk ++ [s.config.endByte])) s = .next t ∧ t.rx = RxState.reset)

/-- R107 (iv): from the reset state, the wire bytes up to the first `END` give at most one event, and a blob exactly
when their unescaped content exists (no bad escape) and has between 1 and `MAX_BUF` bytes; the blob is that content. -/
def Obligations.BlobsAreTheUnescapedContent : Prop :=
  ∀ (s : State) (content : Bytes), s.config.wf = true → s.rx = RxState.reset →
    s.config.endByte ∉ content →
    ∃ es : List FramerEvent, es.length ≤ 1 ∧
      exec (.feed (content ++ [s.config.endByte])) s =
        .next { s with rx := RxState.reset, outputs := s.outputs ++ es.map .framer } ∧
      ∀ b, FramerEvent.blob b ∈ es ↔
        unescape s.config content = some b ∧ 1 ≤ b.length ∧ s.config.fits b.length = true

/-- R100 (v), R62: no blob is emitted before its terminating delimiter. A blob comes from an `END` in NORMAL mode and
is then the buffer; a chunk without `END` emits none. -/
def Obligations.OnlyEndEmitsABlob : Prop :=
  ∀ (s t : State) (b : Bytes), Output.framer (.blob b) ∈ t.outputs → Output.framer (.blob b) ∉ s.outputs →
    (∀ w i, decode s.config (.rxsym w) = .ok i → exec i s = .next t →
      w = s.config.endByte ∧ s.rx.mode = .normal ∧ b = s.rx.buf) ∧
    (∀ chunk, exec (.feed chunk) s = .next t → s.config.endByte ∈ chunk)

/-- R157 (ii): one wire byte raises at most one event; in ESCAPED mode with a full buffer a substitute code raises
Overflow and every other byte raises BadEscape. -/
def Obligations.OneByteRaisesAtMostOneEvent : Prop :=
  ∀ (s t : State) (w : Byte) (i : Instr), s.config.wf = true →
    decode s.config (.rxsym w) = .ok i → exec i s = .next t →
    (t.outputs = s.outputs ∨ ∃ e, t.outputs = s.outputs ++ [.framer e]) ∧
    (s.rx.mode = .escaped → s.config.maxBuf = some s.rx.buf.length →
      t.outputs = s.outputs ++ [.framer (.drop
        (if w = s.config.escEndByte ∨ w = s.config.escEscByte then .overflow else .badEscape))])

/-- R23: escape pending is set by `ESC` in NORMAL mode and cleared by the next wire byte; dropping is set by a discard
that is not on an `END` and cleared by the next `END`; both are 0 after reset; no operation outside the receive
framer and RESET writes them. -/
def Obligations.EscapePendingAndDroppingFlags : Prop :=
  (∀ (s t : State) (w : Byte) (i : Instr), s.config.wf = true →
    decode s.config (.rxsym w) = .ok i → exec i s = .next t →
    (escapePending s.rx = true → escapePending t.rx = false) ∧
    (escapePending s.rx = false →
      (escapePending t.rx = true ↔ s.rx.mode = .normal ∧ w = s.config.escByte)) ∧
    (dropping s.rx = true → (dropping t.rx = true ↔ w ≠ s.config.endByte)) ∧
    (dropping s.rx = false →
      (dropping t.rx = true ↔
        w ≠ s.config.endByte ∧ ∃ r, t.outputs = s.outputs ++ [.framer (.drop r)]))) ∧
  (∀ s t : State, exec .reset s = .next t → escapePending t.rx = false ∧ dropping t.rx = false) ∧
  (∀ (i : Instr) (s t : State), inPort i ≠ some .rxIn → i ≠ .reset → exec i s = .next t →
    escapePending t.rx = escapePending s.rx ∧ dropping t.rx = dropping s.rx)

/-! ### Invariants (R28 of 10_state.md) -/

/-- The invariant of Safety.lean holds after reset. The reset value of `MAX_BUF` is the model's choice
(notes/assumptions/2.md); the other clauses are R30's and R7's values. -/
def Obligations.InvariantHoldsAtReset : Prop := State.reset.Inv

/-- R28, with R7, R34, R35: every step, from every state that meets the invariant, keeps it: the buffer stays within
`MAX_BUF`, is empty while dropping, every blob output has 1 to `MAX_BUF` bytes and every Frame output is valid; and
immediately after RX.END `rx_len = 0` and `rx_mode = NORMAL`. -/
def Obligations.InvariantKeptByEveryStep : Prop :=
  (∀ s t : State, s.Inv → step s = .next t → t.Inv) ∧
  (∀ (i : Instr) (s t : State), s.Inv → exec i s = .next t → t.Inv) ∧
  (∀ s t : State, exec .rxEnd s = .next t → t.rx.buf.length = 0 ∧ t.rx.mode = .normal)

/-! ### The transmit framer (41_framer_transmit.md) -/

/-- R110: TXB.END emits `ESC, ESC_END`, in that order, and writes no state. -/
def Obligations.TxbEndEmitsEscThenEscEnd : Prop :=
  ∀ s : State,
    decode s.config (.txsym s.config.endByte) = .ok .txbEnd ∧
    exec .txbEnd s =
      .next { s with outputs := s.outputs ++ [.wire [s.config.escByte, s.config.escEndByte]] }

/-- R111: TXB.ESC emits `ESC, ESC_ESC`, in that order, and writes no state. -/
def Obligations.TxbEscEmitsEscThenEscEsc : Prop :=
  ∀ s : State,
    (s.config.wf = true → decode s.config (.txsym s.config.escByte) = .ok .txbEsc) ∧
    exec .txbEsc s =
      .next { s with outputs := s.outputs ++ [.wire [s.config.escByte, s.config.escEscByte]] }

/-- R112, R73: TXB.LIT emits its byte as it is and writes no state; `ESC_END` and `ESC_ESC` are such bytes. -/
def Obligations.TxbLitEmitsTheByte : Prop :=
  ∀ (s : State) (b : Byte), (Instr.txbLit b).wf s.config = true →
    decode s.config (.txsym b) = .ok (.txbLit b) ∧
    exec (.txbLit b) s = .next { s with outputs := s.outputs ++ [.wire [b]] } ∧
    (s.config.wf = true → (Instr.txbLit s.config.escEndByte).wf s.config = true ∧
      (Instr.txbLit s.config.escEscByte).wf s.config = true)

/-- R64: the class of a blob byte, and its image under the escape map; the map is injective, its image never contains
`END`, and two blobs with the same packet are the same blob. -/
def Obligations.EscapingIsUniquelyDecodable : Prop :=
  ∀ s : State, s.config.wf = true →
    (∀ b, decode s.config (.txsym b) = .ok
      (if b = s.config.endByte then .txbEnd else if b = s.config.escByte then .txbEsc else .txbLit b)) ∧
    (∀ b i, decode s.config (.txsym b) = .ok i →
      exec i s = .next { s with outputs := s.outputs ++ [.wire (escaped s.config [b])] }) ∧
    (∀ b, s.config.endByte ∉ escaped s.config [b]) ∧
    (∀ b b', escaped s.config [b] = escaped s.config [b'] → b = b') ∧
    (∀ B B' t, exec (.send B) s = .next t → exec (.send B') s = .next t → B = B')

/-- R113, R65: SEND returns, as one contiguous output, `END`, the escaped blob, `END`, for a blob of any length; no
other byte of it is `END`, and its length is `N + 2 + k`. No state is written. -/
def Obligations.SendBuildsTheWirePacket : Prop :=
  ∀ (s : State) (blob : Bytes),
    decode s.config (.opsel 0x2#4 (.bytes blob)) = .ok (.send blob) ∧
    exec (.send blob) s = .next { s with
      outputs := s.outputs ++
        [.wire ([s.config.endByte] ++ escaped s.config blob ++ [s.config.endByte])] } ∧
    (s.config.wf = true → s.config.endByte ∉ escaped s.config blob ∧
      ([s.config.endByte] ++ escaped s.config blob ++ [s.config.endByte]).length =
        blob.length + 2 + blob.countP s.config.isEscaped)

/-- R114: what SEND makes of a blob that fits, cut into chunks in any way, is received as exactly that blob from the
reset state; from any state whatever it is received last, after at most one stale blob or one BadEscape. -/
def Obligations.FramerRoundTrip : Prop :=
  ∀ (s : State) (B W : Bytes), s.config.wf = true → 1 ≤ B.length → s.config.fits B.length = true →
    exec (.send B) s = .next { s with outputs := s.outputs ++ [.wire W] } →
    (∀ chunks : List Bytes, s.rx = RxState.reset → chunks.flatten = W →
      runOps (chunks.map .feed) s = .next { s with outputs := s.outputs ++ [.framer (.blob B)] }) ∧
    (∃ es : List FramerEvent, (es = [] ∨ (∃ b, es = [.blob b]) ∨ es = [.drop .badEscape]) ∧
      exec (.feed W) s = .next { s with
        rx := RxState.reset, outputs := s.outputs ++ es.map .framer ++ [.framer (.blob B)] })

/-- R69 (e), R51 (ii), R173: any number of packets in a row deliver their blobs, all and in order; so do escaped blobs
without a leading `END` that share single delimiters. -/
def Obligations.StreamsDeliverEveryBlobInOrder : Prop :=
  ∀ (s : State) (Bs : List Bytes), s.config.wf = true → s.rx = RxState.reset →
    (∀ B ∈ Bs, 1 ≤ B.length ∧ s.config.fits B.length = true) →
    exec (.feed (Bs.flatMap (fun B => [s.config.endByte] ++ escaped s.config B ++ [s.config.endByte]))) s =
      .next { s with outputs := s.outputs ++ Bs.map (fun B => .framer (.blob B)) } ∧
    exec (.feed (Bs.flatMap (fun B => escaped s.config B ++ [s.config.endByte]))) s =
      .next { s with outputs := s.outputs ++ Bs.map (fun B => .framer (.blob B)) }

/-! ### The frame codec (42_frame_codec.md) -/

/-- R120, R66: ENCODE returns header and payload followed by the CRC16 of exactly that concatenation, low byte first,
for every header and payload; the length is `L + 4`; no state is written. -/
def Obligations.EncodeAppendsTheCode : Prop :=
  ∀ (s : State) (sapId msgId : Byte) (payload : Bytes),
    decode s.config (.opsel 0x3#4 (.frame sapId msgId payload)) = .ok (.encode sapId msgId payload) ∧
    ∃ lo hi : Byte,
      exec (.crc16 ([sapId, msgId] ++ payload)) s =
        .next { s with outputs := s.outputs ++ [.code (hi ++ lo : BitVec (8 + 8))] } ∧
      exec (.encode sapId msgId payload) s =
        .next { s with outputs := s.outputs ++ [.blob ([sapId, msgId] ++ payload ++ [lo, hi])] } ∧
      ([sapId, msgId] ++ payload ++ [lo, hi]).length = payload.length + 4

/-- R121, R67: DECODE answers TooShort exactly below 4 bytes, tested first; otherwise the Frame of the blob's fields if
the trailer is the CRC16 of header and payload, and IntegrityMismatch, with nothing of the blob, if not. No state is
written. -/
def Obligations.DecodeChecksLengthThenCode : Prop :=
  ∀ s : State,
    (∀ blob, decode s.config (.opsel 0x4#4 (.bytes blob)) = .ok (.decode blob)) ∧
    (∀ blob : Bytes, blob.length < 4 →
      exec (.decode blob) s = .next { s with outputs := s.outputs ++ [.codec .tooShort] }) ∧
    (∀ blob : Bytes, 4 ≤ blob.length → ∃ sapId msgId payload lo hi,
      blob = [sapId, msgId] ++ payload ++ [lo, hi]) ∧
    (∀ (sapId msgId : Byte) (payload : Bytes) (lo hi : Byte) (code : U16),
      exec (.crc16 ([sapId, msgId] ++ payload)) s =
        .next { s with outputs := s.outputs ++ [.code code] } →
      exec (.decode ([sapId, msgId] ++ payload ++ [lo, hi])) s = .next { s with
        outputs := s.outputs ++ [.codec
          (if code = (hi ++ lo : BitVec (8 + 8)) then
            .frame ⟨sapId, msgId, payload, (hi ++ lo : BitVec (8 + 8))⟩
          else .integrityMismatch)] })

/-- R122: DECODE of ENCODE gives the Frame back, its trailer the CRC16 of header and payload; conversely, ENCODE of a
Frame that DECODE answered gives the blob back. -/
def Obligations.CodecRoundTrip : Prop :=
  ∀ s : State,
    (∀ (sapId msgId : Byte) (payload B : Bytes) (code : U16),
      exec (.encode sapId msgId payload) s = .next { s with outputs := s.outputs ++ [.blob B] } →
      exec (.crc16 ([sapId, msgId] ++ payload)) s =
        .next { s with outputs := s.outputs ++ [.code code] } →
      exec (.decode B) s = .next { s with
        outputs := s.outputs ++ [.codec (.frame ⟨sapId, msgId, payload, code⟩)] }) ∧
    (∀ (B : Bytes) (f : Frame),
      exec (.decode B) s = .next { s with outputs := s.outputs ++ [.codec (.frame f)] } →
      exec (.encode f.sapId f.msgId f.payload) s =
        .next { s with outputs := s.outputs ++ [.blob B] })

/-- R123, R138, C6: flipping any single bit of an encoded blob, in header, payload or trailer, makes DECODE answer
IntegrityMismatch, always. -/
def Obligations.SingleBitFlipIsDetected : Prop :=
  ∀ (s : State) (sapId msgId : Byte) (payload B : Bytes) (k j : Nat),
    exec (.encode sapId msgId payload) s = .next { s with outputs := s.outputs ++ [.blob B] } →
    k < B.length → j < 8 →
    exec (.decode (B.set k (B.getD k 0 ^^^ (1#8 <<< j)))) s =
      .next { s with outputs := s.outputs ++ [.codec .integrityMismatch] }

/-- R123 (from general knowledge, G4), with the bits of a byte in the order they enter the CRC, bit 0 first (R44): if a
blob decodes, no other blob of its length that differs from it only within 16 consecutive bits does. -/
def Obligations.BurstOfSixteenBitsIsDetected : Prop :=
  ∀ (s : State) (B B' : Bytes) (f : Frame) (p : Nat),
    exec (.decode B) s = .next { s with outputs := s.outputs ++ [.codec (.frame f)] } →
    B'.length = B.length → B' ≠ B →
    (∀ k j, k < B.length → j < 8 → (B.getD k 0).getLsbD j ≠ (B'.getD k 0).getLsbD j →
      p ≤ 8 * k + j ∧ 8 * k + j < p + 16) →
    exec (.decode B') s = .next { s with outputs := s.outputs ++ [.codec .integrityMismatch] }

/-! ### The CRC unit (43_crc16.md) -/

/-- R132: CRC.INIT returns the accumulator 0xFFFF and writes no state. -/
def Obligations.CrcInitStartsAtAllOnes : Prop :=
  ∀ s : State,
    decode s.config (.opsel 0x8#4 .none) = .ok .crcInit ∧
    exec .crcInit s = .next { s with outputs := s.outputs ++ [.acc 0xFFFF#16] }

/-- R133: CRC.UPDATE xors the byte into the low byte of the accumulator and makes 8 shift steps with the reflected
polynomial; the byte-table form gives the same; a zero accumulator absorbs a zero byte. -/
def Obligations.CrcUpdateIsEightShiftSteps : Prop :=
  ∀ (s : State) (acc : U16) (b : Byte),
    decode s.config (.opsel 0x9#4 (.accByte acc b)) = .ok (.crcUpdate acc b) ∧
    exec (.crcUpdate acc b) s = .next { s with
      outputs := s.outputs ++ [.acc
        ((fun a : U16 => if a.getLsbD 0 then (a >>> 1) ^^^ 0x8408#16 else a >>> 1)^[8]
          (acc ^^^ b.setWidth 16))] } ∧
    (∀ T : Byte → U16,
      (∀ i, exec (.crcUpdate 0 i) s = .next { s with outputs := s.outputs ++ [.acc (T i)] }) →
      exec (.crcUpdate acc b) s = .next { s with
        outputs := s.outputs ++ [.acc ((acc >>> 8) ^^^ T ((acc ^^^ b.setWidth 16).setWidth 8))] }) ∧
    exec (.crcUpdate 0 0) s = .next { s with outputs := s.outputs ++ [.acc 0] }

/-- R134: CRC.FINAL returns the one's complement of the accumulator and writes no state. -/
def Obligations.CrcFinalComplements : Prop :=
  ∀ (s : State) (acc : U16),
    decode s.config (.opsel 0xA#4 (.acc acc)) = .ok (.crcFinal acc) ∧
    exec (.crcFinal acc) s = .next { s with outputs := s.outputs ++ [.code (~~~acc)] }

/-- R135: CRC16 is CRC.INIT, one CRC.UPDATE per byte in index order, CRC.FINAL: a run of those operations over any
bytes ends in its code, the code of the empty sequence is 0, and no state is written. -/
def Obligations.Crc16IsInitUpdatesFinal : Prop :=
  ∀ s : State,
    (∀ bs, decode s.config (.opsel 0x5#4 (.bytes bs)) = .ok (.crc16 bs)) ∧
    exec (.crc16 []) s = .next { s with outputs := s.outputs ++ [.code 0] } ∧
    (∀ bs : Bytes, ∃ acc : Nat → U16,
      exec .crcInit s = .next { s with outputs := s.outputs ++ [.acc (acc 0)] } ∧
      (∀ k (h : k < bs.length),
        exec (.crcUpdate (acc k) bs[k]) s = .next { s with outputs := s.outputs ++ [.acc (acc (k + 1))] }) ∧
      exec (.crc16 bs) s = exec (.crcFinal (acc bs.length)) s)

/-- R136: CRC.CHECK of a blob of 4 or more bytes compares the CRC16 of all but its last two bytes with the trailer;
equivalently, the CRC16 over the whole blob is the residue 0x0F47. No state is written. -/
def Obligations.CrcCheckIsTheResidueTest : Prop :=
  ∀ (s : State) (blob : Bytes), 4 ≤ blob.length →
    decode s.config (.opsel 0xB#4 (.bytes blob)) = .ok (.crcCheck blob) ∧
    ∃ v : Bool, exec (.crcCheck blob) s = .next { s with outputs := s.outputs ++ [.check v] } ∧
      (v = true ↔ ∃ (body : Bytes) (lo hi : Byte), blob = body ++ [lo, hi] ∧
        exec (.crc16 body) s =
          .next { s with outputs := s.outputs ++ [.code (hi ++ lo : BitVec (8 + 8))] }) ∧
      (v = true ↔ exec (.crc16 blob) s = .next { s with outputs := s.outputs ++ [.code 0x0F47#16] })

/-- The model's choice (notes/assumptions/8.md): below 4 bytes, where R136 states no result, CRC.CHECK still runs and
returns one Boolean that depends on the blob alone, and writes no state. -/
def Obligations.CrcCheckRunsOnShortBlobs : Prop :=
  ∀ blob : Bytes, blob.length < 4 → ∃ v : Bool, ∀ s : State,
    exec (.crcCheck blob) s = .next { s with outputs := s.outputs ++ [.check v] }

/-- R137 (ii): the code is affine over GF(2). -/
def Obligations.CrcIsAffine : Prop :=
  ∀ (s : State) (a b : Bytes) (ca cb cz : U16), a.length = b.length →
    exec (.crc16 a) s = .next { s with outputs := s.outputs ++ [.code ca] } →
    exec (.crc16 b) s = .next { s with outputs := s.outputs ++ [.code cb] } →
    exec (.crc16 (List.replicate a.length 0)) s = .next { s with outputs := s.outputs ++ [.code cz] } →
    exec (.crc16 (List.zipWith (· ^^^ ·) a b)) s =
      .next { s with outputs := s.outputs ++ [.code (ca ^^^ cb ^^^ cz)] }

/-! ### The data paths (44_pipeline.md) -/

/-- R140: TX_FRAME is SEND of ENCODE, and its bytes are those of the streaming form: `END`, the escaped header and
payload, the escaped low and high byte of their CRC16, `END`. No state is written. -/
def Obligations.TxFrameIsSendOfEncode : Prop :=
  ∀ (s : State) (sapId msgId : Byte) (payload : Bytes),
    decode s.config (.opsel 0x6#4 (.frame sapId msgId payload)) = .ok (.txFrame sapId msgId payload) ∧
    (∃ B, exec (.encode sapId msgId payload) s = .next { s with outputs := s.outputs ++ [.blob B] } ∧
      exec (.txFrame sapId msgId payload) s = exec (.send B) s) ∧
    ∃ lo hi : Byte,
      exec (.crc16 ([sapId, msgId] ++ payload)) s =
        .next { s with outputs := s.outputs ++ [.code (hi ++ lo : BitVec (8 + 8))] } ∧
      exec (.txFrame sapId msgId payload) s = .next { s with
        outputs := s.outputs ++ [.wire ([s.config.endByte] ++ escaped s.config ([sapId, msgId] ++ payload) ++
          escaped s.config [lo] ++ escaped s.config [hi] ++ [s.config.endByte])] }

/-- R141, R142: RX_POLL leaves the receive state FEED leaves and emits one poll event per framer event, in order: for a
blob what DECODE answers on it, for a discard that discard. Nothing else is written. An empty chunk emits nothing, and
two chunks are their concatenation. -/
def Obligations.RxPollDecodesEveryBlob : Prop :=
  ∀ (s : State) (chunk : Bytes),
    decode s.config (.opsel 0x7#4 (.bytes chunk)) = .ok (.rxPoll chunk) ∧
    ∃ (rx : RxState) (es : List FramerEvent) (ps : List PollEvent),
      exec (.feed chunk) s = .next { s with rx := rx, outputs := s.outputs ++ es.map .framer } ∧
      exec (.rxPoll chunk) s = .next { s with rx := rx, outputs := s.outputs ++ ps.map .poll } ∧
      List.Forall₂ (fun e p =>
        (∃ b r, e = .blob b ∧ p = .codec r ∧
          exec (.decode b) s = .next { s with outputs := s.outputs ++ [.codec r] }) ∨
        (∃ d, e = .drop d ∧ p = .drop d)) es ps ∧
      exec (.rxPoll []) s = .next s ∧
      (∀ c₁ c₂, ∃ t, exec (.rxPoll c₁) s = .next t ∧ exec (.rxPoll (c₁ ++ c₂)) s = exec (.rxPoll c₂) t)

/-- R72: from the reset state, the packet of a blob that fits, whole or split in any way, is received as exactly that
blob; and RX_POLL of what TX_FRAME makes, split in any way, answers exactly the Frame that was sent. -/
def Obligations.PipelineRoundTrip : Prop :=
  ∀ s : State, s.config.wf = true → s.rx = RxState.reset →
    (∀ (B : Bytes) (chunks : List Bytes), 1 ≤ B.length → s.config.fits B.length = true →
      chunks.flatten = [s.config.endByte] ++ escaped s.config B ++ [s.config.endByte] →
      runOps (chunks.map .feed) s = .next { s with outputs := s.outputs ++ [.framer (.blob B)] }) ∧
    (∀ (sapId msgId : Byte) (payload W : Bytes) (code : U16) (chunks : List Bytes),
      s.config.fits (payload.length + 4) = true →
      exec (.txFrame sapId msgId payload) s = .next { s with outputs := s.outputs ++ [.wire W] } →
      exec (.crc16 ([sapId, msgId] ++ payload)) s =
        .next { s with outputs := s.outputs ++ [.code code] } →
      chunks.flatten = W →
      runOps (chunks.map .rxPoll) s = .next { s with
        outputs := s.outputs ++ [.poll (.codec (.frame ⟨sapId, msgId, payload, code⟩))] })

/-- R141 (i), R159, R160: whatever bytes came before and whatever state they met, a transmitted frame that fits is
still received, last, and leaves the reset state. -/
def Obligations.ErrorsNeverStopTheStream : Prop :=
  ∀ (s : State) (garbage : Bytes) (sapId msgId : Byte) (payload W : Bytes) (code : U16),
    s.config.wf = true → s.config.fits (payload.length + 4) = true →
    exec (.txFrame sapId msgId payload) s = .next { s with outputs := s.outputs ++ [.wire W] } →
    exec (.crc16 ([sapId, msgId] ++ payload)) s =
      .next { s with outputs := s.outputs ++ [.code code] } →
    ∃ ps : List PollEvent, exec (.rxPoll (garbage ++ W)) s = .next { s with
      rx := RxState.reset,
      outputs := s.outputs ++ ps.map .poll ++
        [.poll (.codec (.frame ⟨sapId, msgId, payload, code⟩))] }

/-! ### The whole machine -/

/-- R183 (v), R51 (iii), R24, for operands and parameters of their types: every operation, in every state, answers a
next state; what it makes of the receive state and what it returns depends on the parameters and the receive state
alone; it changes neither the parameters nor what has been output. Beyond those types the statement is the model's
choice, not the spec's: CRC.CHECK of fewer than 4 bytes (notes/assumptions/8.md), RX.DATA and TXB.LIT with an excluded
byte, and framing bytes that are not distinct (notes/assumptions/11.md) complete as well. -/
def Obligations.EveryOperationCompletes : Prop :=
  ∀ (i : Instr) (c : Config) (rx : RxState), ∃ (rx' : RxState) (os : List Output),
    ∀ s : State, s.config = c → s.rx = rx →
      exec i s = .next { s with rx := rx', outputs := s.outputs ++ os }

/-- R51 (iv), R54, R20, for operands and parameters of their types: the operations outside the receive framer and RESET
return exactly one result, which depends on the parameters alone, and neither read nor write the receive state. Beyond
those types the statement is the model's choice, not the spec's: the one result of CRC.CHECK of fewer than 4 bytes
(notes/assumptions/8.md), of TXB.LIT with `END` or `ESC`, and of any operation where the framing bytes are not distinct
(notes/assumptions/11.md). -/
def Obligations.TransmitSideIgnoresReceiveState : Prop :=
  ∀ (i : Instr) (c : Config), inPort i ≠ some .rxIn → i ≠ .reset →
    ∃ o : Output, ∀ s : State, s.config = c →
      exec i s = .next { s with outputs := s.outputs ++ [o] }

/-- R143, R165, R180: what FEED, RX_POLL, a byte operation of the receiver or DECODE returns leaves on `rx_out`, all of
it and in order, and nothing of it on `tx_out`; a packet of SEND or TX_FRAME leaves on `tx_out` after everything before
it, contiguous, and nothing of it on `rx_out`. -/
def Obligations.EventsAndPacketsUseTheirPorts : Prop :=
  (∀ (s t : State) (i : Instr), i.wf s.config = true → inPort i = some .rxIn ∨ (∃ blob, i = .decode blob) →
    exec i s = .next t →
    t.txOut = s.txOut ∧ ∃ es : List Output, t.outputs = s.outputs ++ es ∧ t.rxOut = s.rxOut ++ es) ∧
  (∀ s t : State,
    (∃ blob, exec (.send blob) s = .next t) ∨ (∃ a b p, exec (.txFrame a b p) s = .next t) →
    t.rxOut = s.rxOut ∧ ∃ W, t.outputs = s.outputs ++ [.wire W] ∧ t.txOut = s.txOut ++ W)

/-- R24, R29: along any number of steps the parameters stay as they are and nothing already output is changed. -/
def Obligations.ParametersNeverChange : Prop :=
  ∀ (n : Nat) (s t : State), runSteps n s = .next t →
    t.config = s.config ∧ ∃ os : List Output, t.outputs = s.outputs ++ os

/-- R183, R49: a step takes the owner's next request and runs the operation it decodes to, whole. The inbox is the
model's (notes/assumptions/3.md). -/
def Obligations.StepRunsTheDecodedOperation : Prop :=
  ∀ (s : State) (r : Request) (rest : List Request) (i : Instr),
    s.inbox = r :: rest → decode s.config r = .ok i → step s = exec i { s with inbox := rest }

/-- R183 (i), (iv): the block never acts on its own; with nothing asked a step changes nothing. -/
def Obligations.NothingAskedNothingChanges : Prop :=
  ∀ s : State, s.inbox = [] → step s = .next s

/-- The model's choice for what is no operation (R68; notes/assumptions/9.md): a request with a reserved selector, or
with operands not of its selector's shape, is refused by name, and nothing else is. -/
def Obligations.OnlyUndecodableRequestsAreRefused : Prop :=
  ∀ (s : State) (r : Request) (rest : List Request), s.inbox = r :: rest →
    (∀ e, decode s.config r = .error e → step s = .refused (.undecodable e)) ∧
    (∀ e, step s = .refused e →
      ∃ sel args, r = .opsel sel args ∧
        (e = .undecodable (.reservedSelector sel) ∧ 12 ≤ sel.toNat ∨
         e = .undecodable (.operandShape sel args) ∧ sel.toNat < 12))

/-! ### Encodings (30_encoding.md) -/

/-- R63, R64, R68: the request an operation is encoded as decodes to that operation, with every operand at every
value it admits. -/
def Obligations.DecodeOfEncodeIsTheOperation : Prop :=
  ∀ (c : Config) (i : Instr), c.wf = true → i.wf c = true → decode c (encode c i) = .ok i

/-- R63, R64, R68: every request that decodes is the encoding of what it decodes to, which is well formed and of the
request's format: no two requests are the same operation. -/
def Obligations.EncodeOfDecodeIsTheRequest : Prop :=
  ∀ (c : Config) (r : Request) (i : Instr), decode c r = .ok i →
    encode c i = r ∧ i.wf c = true ∧ i.format = r.format

/-- R63: every wire byte is in exactly one class; with the default parameters the classes are the table's, 252 bytes
in the last. -/
def Obligations.WireByteClassesAreTheTables : Prop :=
  (∀ (c : Config) (w : Byte), c.wf = true →
    (decode c (.rxsym w) = .ok .rxEnd ↔ w = c.endByte) ∧
    (decode c (.rxsym w) = .ok .rxEsc ↔ w = c.escByte) ∧
    (decode c (.rxsym w) = .ok .rxEscEnd ↔ w = c.escEndByte) ∧
    (decode c (.rxsym w) = .ok .rxEscEsc ↔ w = c.escEscByte) ∧
    (decode c (.rxsym w) = .ok (.rxData w) ↔
      w ≠ c.endByte ∧ w ≠ c.escByte ∧ w ≠ c.escEndByte ∧ w ≠ c.escEscByte)) ∧
  decode Config.default (.rxsym 0xC0#8) = .ok .rxEnd ∧
  decode Config.default (.rxsym 0xDB#8) = .ok .rxEsc ∧
  decode Config.default (.rxsym 0xDC#8) = .ok .rxEscEnd ∧
  decode Config.default (.rxsym 0xDD#8) = .ok .rxEscEsc ∧
  ((List.range 256).countP fun n =>
    decide (classifyRx Config.default (BitVec.ofNat 8 n) = .rxData (BitVec.ofNat 8 n))) = 252

/-- R68: the twelve selectors stand for the operations the table numbers, with the table's operands; 0xC-0xF stand for
none. -/
def Obligations.SelectorsAreTheTables : Prop :=
  ∀ (c : Config) (s : Bytes) (sapId msgId b : Byte) (acc : U16),
    decode c (.opsel 0x0#4 .none) = .ok .reset ∧
    decode c (.opsel 0x1#4 (.bytes s)) = .ok (.feed s) ∧
    decode c (.opsel 0x2#4 (.bytes s)) = .ok (.send s) ∧
    decode c (.opsel 0x3#4 (.frame sapId msgId s)) = .ok (.encode sapId msgId s) ∧
    decode c (.opsel 0x4#4 (.bytes s)) = .ok (.decode s) ∧
    decode c (.opsel 0x5#4 (.bytes s)) = .ok (.crc16 s) ∧
    decode c (.opsel 0x6#4 (.frame sapId msgId s)) = .ok (.txFrame sapId msgId s) ∧
    decode c (.opsel 0x7#4 (.bytes s)) = .ok (.rxPoll s) ∧
    decode c (.opsel 0x8#4 .none) = .ok .crcInit ∧
    decode c (.opsel 0x9#4 (.accByte acc b)) = .ok (.crcUpdate acc b) ∧
    decode c (.opsel 0xA#4 (.acc acc)) = .ok (.crcFinal acc) ∧
    decode c (.opsel 0xB#4 (.bytes s)) = .ok (.crcCheck s) ∧
    ∀ (sel : BitVec 4) (args : Args), 12 ≤ sel.toNat →
      decode c (.opsel sel args) = .error (.reservedSelector sel)

/-- R33, R150: the numbers the spec gives the modes and the outcomes; 3 is never a mode's. -/
def Obligations.CodesOfModesAndOutcomes : Prop :=
  RxMode.normal.code = 0 ∧ RxMode.escaped.code = 1 ∧ RxMode.drop.code = 2 ∧
  (∀ m : RxMode, m.code ≠ 3) ∧
  (∀ f, (PollEvent.codec (.frame f)).code = 0) ∧
  (PollEvent.codec .tooShort).code = 1 ∧ (PollEvent.codec .integrityMismatch).code = 2 ∧
  (PollEvent.drop .badEscape).code = 3 ∧ (PollEvent.drop .overflow).code = 4

/-! ### Outcomes (60_exceptions.md) -/

/-- R165: every outcome of R150 that an operation returns, DECODE called directly included, leaves on the one output
`rx_out`, in the order in which it was returned, after every outcome before it. -/
def Obligations.EveryOutcomeLeavesOnRxOut : Prop :=
  ∀ (i : Instr) (s t : State), s.config.wf = true → i.wf s.config = true → i.resultStated = true →
    exec i s = .next t →
    ∃ os : List Output, t.outputs = s.outputs ++ os ∧
      t.rxOut.filter isOutcome = s.rxOut.filter isOutcome ++ os.filter isOutcome
end

