-- ==== Sys2Proof/Laws/State.lean ====
section
/-! SUPPORT. One lemma per field per state update, so that no later proof unfolds a record update. -/

namespace Sys2Proof.Machine

@[simp] theorem State.emit_config (s : State) (o : Output) : (s.emit o).config = s.config := rfl
@[simp] theorem State.emit_rx (s : State) (o : Output) : (s.emit o).rx = s.rx := rfl
@[simp] theorem State.emit_inbox (s : State) (o : Output) : (s.emit o).inbox = s.inbox := rfl
@[simp] theorem State.emit_outputs (s : State) (o : Output) : (s.emit o).outputs = s.outputs ++ [o] := rfl

@[simp] theorem State.receive_config (s : State) (rx : RxState) (es : List Output) :
    (s.receive rx es).config = s.config := rfl
@[simp] theorem State.receive_rx (s : State) (rx : RxState) (es : List Output) :
    (s.receive rx es).rx = rx := rfl
@[simp] theorem State.receive_inbox (s : State) (rx : RxState) (es : List Output) :
    (s.receive rx es).inbox = s.inbox := rfl
@[simp] theorem State.receive_outputs (s : State) (rx : RxState) (es : List Output) :
    (s.receive rx es).outputs = s.outputs ++ es := rfl

@[simp] theorem State.receiveByte_config (s : State) (r : ByteResult) :
    (s.receiveByte r).config = s.config := rfl
@[simp] theorem State.receiveByte_rx (s : State) (r : ByteResult) : (s.receiveByte r).rx = r.1 := rfl
@[simp] theorem State.receiveByte_inbox (s : State) (r : ByteResult) :
    (s.receiveByte r).inbox = s.inbox := rfl
@[simp] theorem State.receiveByte_outputs (s : State) (r : ByteResult) :
    (s.receiveByte r).outputs = s.outputs ++ r.2.toList.map .framer := rfl

@[simp] theorem RxState.reset_mode : RxState.reset.mode = .normal := rfl
@[simp] theorem RxState.reset_buf : RxState.reset.buf = [] := rfl

/-- Two receives in a row are one receive. -/
theorem State.receive_receive (s : State) (rx rx' : RxState) (es es' : List Output) :
    (s.receive rx es).receive rx' es' = s.receive rx' (es ++ es') := by
  simp [State.receive, List.append_assoc]

/-- A receive that changes nothing and emits nothing. -/
@[simp] theorem State.receive_self (s : State) : s.receive s.rx [] = s := by
  simp [State.receive]

end Sys2Proof.Machine
end

