-- ==== Sys2Proof/Laws/Crc.lean ====
section
/-! SUPPORT. The CRC steps are linear over GF(2) and injective (R137 of 43_crc16.md). -/

namespace Sys2Proof.Machine

/-- One step, as a shift and a selected polynomial. -/
theorem crcShift_eq (a : U16) :
    crcShift a = (a >>> 1) ^^^ (if a.getLsbD 0 then Config.crcPolyReflected else 0) := by
  unfold crcShift
  split <;> simp

theorem crcShift_xor (a b : U16) : crcShift (a ^^^ b) = crcShift a ^^^ crcShift b := by
  simp only [crcShift_eq, BitVec.ushiftRight_xor_distrib, BitVec.getLsbD_xor]
  cases a.getLsbD 0 <;> cases b.getLsbD 0 <;> simp
  · ac_rfl
  · ac_rfl
  · rw [show ∀ x y p : U16, (x ^^^ p) ^^^ (y ^^^ p) = x ^^^ y from fun x y p => by
      rw [BitVec.xor_assoc, BitVec.xor_comm y p, ← BitVec.xor_assoc p p y]; simp]

theorem crcShift_zero : crcShift 0 = 0 := by decide

theorem crcShift_eq_zero {a : U16} (h : crcShift a = 0) : a = 0 := by
  rw [crcShift_eq] at h
  have hbit : ∀ i, ((a >>> 1) ^^^ (if a.getLsbD 0 then Config.crcPolyReflected else 0)).getLsbD i =
      false := by rw [h]; simp
  have h0 : a.getLsbD 0 = false := by
    have := hbit 15
    rw [BitVec.getLsbD_xor, BitVec.getLsbD_ushiftRight] at this
    rw [BitVec.getLsbD_of_ge a (1 + 15) (by omega)] at this
    cases h0 : a.getLsbD 0 with
    | false => rfl
    | true => rw [h0] at this; exact absurd this (by decide)
  apply BitVec.eq_of_getLsbD_eq
  intro i hi
  simp only [BitVec.ofNat_eq_ofNat, BitVec.getLsbD_zero]
  cases i with
  | zero => exact h0
  | succ i =>
    have := hbit i
    rw [BitVec.getLsbD_xor, BitVec.getLsbD_ushiftRight, h0] at this
    simpa [Nat.add_comm 1 i] using this

theorem crcShifts_xor (n : Nat) : ∀ a b, crcShifts n (a ^^^ b) = crcShifts n a ^^^ crcShifts n b := by
  induction n with
  | zero => intro a b; rfl
  | succ n ih => intro a b; simp [crcShifts, crcShift_xor, ih]

theorem crcShifts_zero (n : Nat) : crcShifts n 0 = 0 := by
  induction n with
  | zero => rfl
  | succ n ih => simp only [crcShifts, crcShift_zero, ih]

theorem crcShifts_eq_zero (n : Nat) : ∀ {a}, crcShifts n a = 0 → a = 0 := by
  induction n with
  | zero => intro a h; exact h
  | succ n ih => intro a h; exact crcShift_eq_zero (ih h)

theorem crcShifts_add (m n : Nat) : ∀ a, crcShifts (m + n) a = crcShifts n (crcShifts m a) := by
  induction m with
  | zero => intro a; simp [crcShifts]
  | succ m ih => intro a; rw [Nat.add_right_comm]; simp only [crcShifts, ih]

theorem zext16_xor (a b : Byte) : zext16 (a ^^^ b) = zext16 a ^^^ zext16 b := by
  simp [zext16, BitVec.setWidth_xor]

@[simp] theorem zext16_zero : zext16 0#8 = 0#16 := by decide

theorem zext16_injective {a b : Byte} (h : zext16 a = zext16 b) : a = b := by
  have := congrArg (BitVec.setWidth 8) h
  simpa [zext16] using this

/-- CRC.UPDATE is linear in the accumulator and the byte together. -/
theorem crcUpdate_xor (a a' : U16) (b b' : Byte) :
    crcUpdate (a ^^^ a') (b ^^^ b') = crcUpdate a b ^^^ crcUpdate a' b' := by
  simp only [crcUpdate, zext16_xor, ← crcShifts_xor]
  congr 1
  ac_rfl

@[simp] theorem crcUpdate_zero : crcUpdate 0#16 0#8 = 0#16 := by decide

@[simp] theorem crcAbsorb_nil (acc : U16) : crcAbsorb acc [] = acc := rfl

theorem crcAbsorb_cons (acc : U16) (b : Byte) (bs : Bytes) :
    crcAbsorb acc (b :: bs) = crcAbsorb (crcUpdate acc b) bs := rfl

/-- The accumulator can be carried across a cut of the bytes (R135 (iii)). -/
theorem crcAbsorb_append (as bs : Bytes) : ∀ acc,
    crcAbsorb acc (as ++ bs) = crcAbsorb (crcAbsorb acc as) bs := by
  induction as with
  | nil => intro acc; rfl
  | cons a as ih => intro acc; simp [crcAbsorb_cons, ih]

/-- Over the same bytes, the accumulator's difference evolves on zero bytes. -/
theorem crcAbsorb_xor (bs : Bytes) : ∀ a a',
    crcAbsorb (a ^^^ a') bs = crcAbsorb a bs ^^^ crcAbsorb a' (List.replicate bs.length 0) := by
  induction bs with
  | nil => intro a a'; rfl
  | cons b bs ih =>
    intro a a'
    simp only [List.length_cons, List.replicate_succ, crcAbsorb_cons, ← ih, ← crcUpdate_xor]
    simp

theorem crcAbsorb_zeros_eq_zero (n : Nat) : ∀ {a}, crcAbsorb a (List.replicate n 0) = 0 → a = 0 := by
  induction n with
  | zero => intro a h; exact h
  | succ n ih =>
    intro a h
    rw [List.replicate_succ, crcAbsorb_cons] at h
    have := crcShifts_eq_zero 8 (ih h)
    simpa using this

/-- For the same bytes, the accumulator after them determines the one before them. -/
theorem crcAbsorb_injective (bs : Bytes) {a a' : U16} (h : crcAbsorb a bs = crcAbsorb a' bs) :
    a = a' := by
  have e : a' = a ^^^ (a ^^^ a') := by rw [← BitVec.xor_assoc]; simp
  rw [e, crcAbsorb_xor] at h
  have h0 : crcAbsorb (a ^^^ a') (List.replicate bs.length 0) = 0 := by
    have := congrArg (crcAbsorb a bs ^^^ ·) h
    simpa [← BitVec.xor_assoc] using this.symm
  have := crcAbsorb_zeros_eq_zero _ h0
  exact BitVec.xor_eq_zero_iff.1 this

/-- The accumulators of two byte sequences of one length add up bytewise. -/
theorem crcAbsorb_zipWith (as : Bytes) : ∀ (bs : Bytes) (x y : U16), as.length = bs.length →
    crcAbsorb (x ^^^ y) (List.zipWith (· ^^^ ·) as bs) = crcAbsorb x as ^^^ crcAbsorb y bs := by
  induction as with
  | nil => intro bs x y h; cases bs <;> simp at h ⊢
  | cons a as ih =>
    intro bs x y h
    cases bs with
    | nil => simp at h
    | cons b bs =>
      rw [List.zipWith_cons_cons, crcAbsorb_cons, crcUpdate_xor, ih _ _ _ (by simpa using h)]
      rfl

/-- Steps undo a left shift that lost no bit: no polynomial is selected on the way. -/
theorem crcShifts_shiftLeft (n : Nat) : ∀ y : U16, (∀ i, 16 - n ≤ i → y.getLsbD i = false) →
    crcShifts n (y <<< n) = y := by
  induction n with
  | zero => intro y _; simp [crcShifts]
  | succ n ih =>
    intro y hy
    by_cases hn : n < 16
    · have hstep : crcShift (y <<< (n + 1)) = y <<< n := by
        unfold crcShift
        rw [if_neg (by simp)]
        apply BitVec.eq_of_getLsbD_eq
        intro i hi
        rw [BitVec.getLsbD_ushiftRight, BitVec.getLsbD_shiftLeft, BitVec.getLsbD_shiftLeft]
        by_cases h : i < n
        · rw [decide_eq_true h, decide_eq_true (show 1 + i < n + 1 by omega)]
          simp
        · rw [decide_eq_false h, decide_eq_false (show ¬1 + i < n + 1 by omega),
            show 1 + i - (n + 1) = i - n by omega, decide_eq_true hi]
          by_cases h15 : i = 15
          · rw [hy (i - n) (by omega)]; simp
          · rw [decide_eq_true (show 1 + i < 16 by omega)]
      rw [crcShifts, hstep]
      exact ih y (fun i hi => hy i (by omega))
    · have h0 : y = 0 := by
        apply BitVec.eq_of_getLsbD_eq
        intro i hi
        rw [hy i (by omega)]
        simp
      subst h0
      simpa using crcShifts_zero (n + 1)

theorem crcFinal_injective {a b : U16} (h : crcFinal a = crcFinal b) : a = b := by
  have := congrArg (· ^^^ Config.crcXorOut) h
  simpa [crcFinal, BitVec.xor_assoc] using this

end Sys2Proof.Machine
end

