-- ==== Sys2Proof/Laws/Codec.lean ====
section
/-! SUPPORT. The fields of a blob and the trailer (R61, R66, R67 of 30_encoding.md; R120, R121 of
42_frame_codec.md). -/

namespace Sys2Proof.Machine

/-- The trailer is its high byte over its low byte. -/
theorem assembleTrailer_eq (lo hi : Byte) : assembleTrailer lo hi = (hi ++ lo : BitVec (8 + 8)) := by
  apply BitVec.eq_of_getLsbD_eq
  intro i hi'
  simp only [assembleTrailer, zext16, BitVec.getLsbD_or, BitVec.getLsbD_shiftLeft, BitVec.getLsbD_setWidth,
    BitVec.getLsbD_append]
  by_cases h : i < 8
  · simp [h, hi']
  · simp [h, hi', show i - 8 < 16 by omega, BitVec.getLsbD_of_ge lo i (by omega)]

@[simp] theorem assembleTrailer_lo_hi (t : U16) : assembleTrailer (trailerLo t) (trailerHi t) = t := by
  apply BitVec.eq_of_getLsbD_eq
  intro i hi
  simp only [assembleTrailer, zext16, trailerLo, trailerHi, BitVec.getLsbD_or, BitVec.getLsbD_shiftLeft,
    BitVec.getLsbD_setWidth, BitVec.getLsbD_extractLsb']
  by_cases h : i < 8
  · simp [h, hi]
  · simp [h, hi, show i - 8 < 8 by omega, show i - 8 < 16 by omega, show 8 + (i - 8) = i by omega]

theorem trailer_bytes_of_assemble {lo hi : Byte} {t : U16} (h : assembleTrailer lo hi = t) :
    lo = trailerLo t ∧ hi = trailerHi t := by
  subst h
  constructor
  · apply BitVec.eq_of_getLsbD_eq
    intro i hi'
    simp [trailerLo, assembleTrailer, zext16, hi', show i < 16 by omega]
  · apply BitVec.eq_of_getLsbD_eq
    intro i hi'
    simp [trailerHi, assembleTrailer, zext16, hi', show 8 + i < 16 by omega]

/-- A blob of 4 or more bytes in its fields. -/
theorem blob_fields_of_length {blob : Bytes} (h : 4 ≤ blob.length) :
    ∃ sapId msgId payload lo hi, blob = [sapId, msgId] ++ payload ++ [lo, hi] := by
  match blob, h with
  | a :: b :: rest, h =>
    have hr : 2 ≤ rest.length := by simpa using h
    refine ⟨a, b, rest.take (rest.length - 2), rest[rest.length - 2], rest[rest.length - 1], ?_⟩
    simp only [List.cons_append, List.nil_append]
    congr 2
    conv_lhs => rw [← List.take_append_drop (rest.length - 2) rest]
    congr 1
    rw [List.drop_eq_getElem_cons (by omega), List.drop_eq_getElem_cons (by omega),
      List.drop_eq_nil_of_le (by omega)]
    congr 2
    simp [show rest.length - 2 + 1 = rest.length - 1 by omega]

section fields
variable (sapId msgId : Byte) (payload : Bytes) (lo hi : Byte)

@[simp] theorem blobSapId_fields : blobSapId ([sapId, msgId] ++ payload ++ [lo, hi]) = sapId := rfl

@[simp] theorem blobMsgId_fields : blobMsgId ([sapId, msgId] ++ payload ++ [lo, hi]) = msgId := rfl

@[simp] theorem blobBody_fields :
    blobBody ([sapId, msgId] ++ payload ++ [lo, hi]) = [sapId, msgId] ++ payload := by
  unfold blobBody slice
  rw [List.drop_zero, List.take_append_of_le_length (by simp)]
  simp

@[simp] theorem blobPayload_fields : blobPayload ([sapId, msgId] ++ payload ++ [lo, hi]) = payload := by
  unfold blobPayload slice
  rw [List.take_append_of_le_length (by simp)]
  simp

@[simp] theorem blobTrailer_fields :
    blobTrailer ([sapId, msgId] ++ payload ++ [lo, hi]) = assembleTrailer lo hi := by
  unfold blobTrailer byteAt
  have h0 : ([sapId, msgId] ++ payload).length = payload.length + 2 := by simp
  have h1 : ([sapId, msgId] ++ payload ++ [lo, hi]).length - 2 = payload.length + 2 := by
    simp
  have h2 : ([sapId, msgId] ++ payload ++ [lo, hi]).length - 1 = payload.length + 3 := by
    simp
  rw [h1, h2]
  simp only [List.getD_eq_getElem?_getD]
  rw [List.getElem?_append_right (by omega), List.getElem?_append_right (by omega), h0,
    Nat.sub_self, show payload.length + 3 - (payload.length + 2) = 1 by omega]
  rfl

/-- CRC.CHECK on the fields of a blob. -/
theorem crcCheck_fields : crcCheck ([sapId, msgId] ++ payload ++ [lo, hi]) =
    (crc16 ([sapId, msgId] ++ payload) == assembleTrailer lo hi) := by
  unfold crcCheck
  rw [blobBody_fields, blobTrailer_fields]

/-- DECODE on the fields of a blob. -/
theorem decodeBlob_fields : decodeBlob ([sapId, msgId] ++ payload ++ [lo, hi]) =
    if crc16 ([sapId, msgId] ++ payload) = assembleTrailer lo hi then
      .frame { sapId := sapId, msgId := msgId, payload := payload, trailer := assembleTrailer lo hi }
    else .integrityMismatch := by
  unfold decodeBlob
  rw [if_neg (by simp [Config.minBlob]), crcCheck_fields, blobSapId_fields, blobMsgId_fields,
    blobPayload_fields, blobTrailer_fields]
  simp

end fields

theorem decodeBlob_short {blob : Bytes} (h : blob.length < 4) : decodeBlob blob = .tooShort := by
  simp [decodeBlob, Config.minBlob, h]

theorem encodeBlob_eq (sapId msgId : Byte) (payload : Bytes) :
    encodeBlob sapId msgId payload = [sapId, msgId] ++ payload ++
      [trailerLo (crc16 ([sapId, msgId] ++ payload)), trailerHi (crc16 ([sapId, msgId] ++ payload))] := rfl

@[simp] theorem encodeBlob_length (sapId msgId : Byte) (payload : Bytes) :
    (encodeBlob sapId msgId payload).length = payload.length + 4 := by
  simp [encodeBlob_eq]

theorem encodeBlob_ne_nil (sapId msgId : Byte) (payload : Bytes) : encodeBlob sapId msgId payload ≠ [] := by
  intro h
  simpa [h] using encodeBlob_length sapId msgId payload

/-- Every Frame DECODE answers is valid (R34). -/
theorem decodeBlob_frame_valid {blob : Bytes} {f : Frame} (h : decodeBlob blob = .frame f) :
    f.trailer = crc16 ([f.sapId, f.msgId] ++ f.payload) := by
  by_cases hl : blob.length < 4
  · rw [decodeBlob_short hl] at h; cases h
  · obtain ⟨a, b, p, lo, hi, rfl⟩ := blob_fields_of_length (Nat.le_of_not_lt hl)
    rw [decodeBlob_fields] at h
    split at h
    · rename_i he; cases h; exact he.symm
    · cases h

end Sys2Proof.Machine
end

