-- ==== Sys2Proof/Laws/PerInstr.lean ====
section
/-! SUPPORT. Decode after encode, operation by operation (R63, R64, R68 of 30_encoding.md). -/

namespace Sys2Proof.Laws.DecodeEncode

/-- Where the framing bytes are distinct and the operation's operands are of its type, its request decodes to it. -/
def Statement (i : Instr) : Prop :=
  ∀ c : Config, c.wf = true → i.wf c = true → decode c (encode c i) = .ok i

theorem rxEnd : Statement .rxEnd := fun c _ _ => by simp [encode, decode, classifyRx]

theorem rxEsc : Statement .rxEsc := fun c h _ => by
  have h1 : c.escByte ≠ c.endByte := by rintro e; simp [Config.wf, e] at h
  simp [encode, decode, classifyRx, h1]

theorem rxEscEnd : Statement .rxEscEnd := fun c h _ => by
  have h1 : c.escEndByte ≠ c.endByte := by rintro e; simp [Config.wf, e] at h
  have h2 : c.escEndByte ≠ c.escByte := by rintro e; simp [Config.wf, e] at h
  simp [encode, decode, classifyRx, h1, h2]

theorem rxEscEsc : Statement .rxEscEsc := fun c h _ => by
  have h1 : c.escEscByte ≠ c.endByte := by rintro e; simp [Config.wf, e] at h
  have h2 : c.escEscByte ≠ c.escByte := by rintro e; simp [Config.wf, e] at h
  have h3 : c.escEscByte ≠ c.escEndByte := by rintro e; simp [Config.wf, e] at h
  simp [encode, decode, classifyRx, h1, h2, h3]

theorem rxData (w : Byte) : Statement (.rxData w) := fun c _ h => by
  have h' : ((w ≠ c.endByte ∧ w ≠ c.escByte) ∧ w ≠ c.escEndByte) ∧ w ≠ c.escEscByte := by
    simpa [Instr.wf, Config.isSpecial] using h
  simp [encode, decode, classifyRx, h'.1.1.1, h'.1.1.2, h'.1.2, h'.2]

theorem txbEnd : Statement .txbEnd := fun c _ _ => by simp [encode, decode, classifyTx]

theorem txbEsc : Statement .txbEsc := fun c h _ => by
  have h1 : c.escByte ≠ c.endByte := by rintro e; simp [Config.wf, e] at h
  simp [encode, decode, classifyTx, h1]

theorem txbLit (b : Byte) : Statement (.txbLit b) := fun c _ h => by
  have h' : b ≠ c.endByte ∧ b ≠ c.escByte := by simpa [Instr.wf, Config.isEscaped] using h
  simp [encode, decode, classifyTx, h'.1, h'.2]

theorem reset : Statement .reset := fun _ _ _ => rfl

theorem feed (chunk : Bytes) : Statement (.feed chunk) := fun _ _ _ => rfl

theorem send (blob : Bytes) : Statement (.send blob) := fun _ _ _ => rfl

theorem encode (sapId msgId : Byte) (payload : Bytes) : Statement (.encode sapId msgId payload) :=
  fun _ _ _ => rfl

theorem decode (blob : Bytes) : Statement (.decode blob) := fun _ _ _ => rfl

theorem crc16 (bytes : Bytes) : Statement (.crc16 bytes) := fun _ _ _ => rfl

theorem txFrame (sapId msgId : Byte) (payload : Bytes) : Statement (.txFrame sapId msgId payload) :=
  fun _ _ _ => rfl

theorem rxPoll (chunk : Bytes) : Statement (.rxPoll chunk) := fun _ _ _ => rfl

theorem crcInit : Statement .crcInit := fun _ _ _ => rfl

theorem crcUpdate (acc : U16) (b : Byte) : Statement (.crcUpdate acc b) := fun _ _ _ => rfl

theorem crcFinal (acc : U16) : Statement (.crcFinal acc) := fun _ _ _ => rfl

theorem crcCheck (blob : Bytes) : Statement (.crcCheck blob) := fun _ _ _ => rfl

end Sys2Proof.Laws.DecodeEncode
end

