-- ==== Sys2Proof/Laws/Memory.lean ====
section
/-! SUPPORT. The reassembly buffer as a memory: its listed cells are in canonical form, and a read after a write
(R40, R41, R45, R46 of 20_memory.md). -/

namespace Sys2Proof.Machine

/-- The listed cells of a buffer have strictly rising addresses. -/
theorem cellsFrom_wf (bs : Bytes) : ∀ a, Memory.wf (cellsFrom a bs) = true := by
  induction bs with
  | nil => intro a; rfl
  | cons b bs ih =>
    intro a
    cases bs with
    | nil => rfl
    | cons b' bs' =>
      have := ih (a + 1)
      simp only [cellsFrom, Memory.wf] at this ⊢
      simp [this]

/-- Every receive state's memory is canonical, so every operation keeps the form. -/
theorem cells_wf (rx : RxState) : Memory.wf rx.cells = true := cellsFrom_wf rx.buf 0

theorem mem_cellsFrom (bs : Bytes) (v : Byte) :
    ∀ a k, (k, v) ∈ cellsFrom a bs ↔ a ≤ k ∧ bs[k - a]? = some v := by
  induction bs with
  | nil => intro a k; simp [cellsFrom]
  | cons b bs ih =>
    intro a k
    simp only [cellsFrom, List.mem_cons, Prod.mk.injEq, ih]
    constructor
    · rintro (⟨rfl, rfl⟩ | ⟨h, hv⟩)
      · simp
      · refine ⟨by omega, ?_⟩
        rw [show k - a = (k - (a + 1)) + 1 by omega, List.getElem?_cons_succ]
        exact hv
    · rintro ⟨h, hv⟩
      rcases Nat.eq_or_lt_of_le h with rfl | hlt
      · left; simpa using hv.symm
      · right
        rw [show k - a = (k - (a + 1)) + 1 by omega, List.getElem?_cons_succ] at hv
        exact ⟨hlt, hv⟩

/-- Reading a cell gives the byte the buffer lists there. -/
theorem memRead_ok_iff (rx : RxState) (a : Nat) (v : Byte) :
    memRead rx a = .ok v ↔ (a, v) ∈ rx.cells := by
  rw [RxState.cells, mem_cellsFrom]
  unfold memRead
  cases rx.buf[a]? <;> simp

/-- A cell below `rx_len` reads as the byte at that index. -/
theorem memRead_of_lt (rx : RxState) (a : Nat) (h : a < rx.buf.length) :
    memRead rx a = .ok rx.buf[a] := by
  unfold memRead
  rw [List.getElem?_eq_getElem h]

/-- A cell at or above `rx_len` holds no value. -/
theorem memRead_of_le (rx : RxState) (a : Nat) (h : rx.buf.length ≤ a) :
    memRead rx a = .error (.unwrittenCell a) := by
  unfold memRead
  rw [List.getElem?_eq_none h]

@[simp] theorem memPush_mode (rx : RxState) (v : Byte) : (memPush rx v).mode = rx.mode := rfl
@[simp] theorem memPush_buf (rx : RxState) (v : Byte) : (memPush rx v).buf = rx.buf ++ [v] := rfl

/-- Reading the cell just written. -/
theorem memRead_memPush_self (rx : RxState) (v : Byte) :
    memRead (memPush rx v) rx.buf.length = .ok v := by
  rw [memRead_of_lt _ _ (by simp)]
  simp

/-- A write leaves every other cell alone. -/
theorem memRead_memPush_ne (rx : RxState) (v : Byte) (a : Nat) (h : a ≠ rx.buf.length) :
    memRead (memPush rx v) a = memRead rx a := by
  rcases Nat.lt_or_gt_of_ne h with h | h
  · rw [memRead_of_lt _ _ (by simp; omega), memRead_of_lt _ _ h]
    simp [List.getElem_append_left h]
  · rw [memRead_of_le _ _ (by simp; omega), memRead_of_le _ _ (by omega)]

@[simp] theorem extract_bytes (rx : RxState) : (extract rx).1 = rx.buf := rfl
@[simp] theorem extract_mode (rx : RxState) : (extract rx).2.mode = rx.mode := rfl
@[simp] theorem extract_buf (rx : RxState) : (extract rx).2.buf = [] := rfl

end Sys2Proof.Machine
end

