-- ==== Sys2Proof/Laws/Receive.lean ====
section
/-! SUPPORT. What the receive framer's operations can do, said once each (R100-R107 of 40_framer_receive.md). -/

namespace Sys2Proof.Machine

/-! ### Append and raise -/

@[simp] theorem raiseDrop_state (m : RxMode) (r : DropReason) :
    (raiseDrop m r).1 = { mode := m, buf := [] } := rfl
@[simp] theorem raiseDrop_event (m : RxMode) (r : DropReason) :
    (raiseDrop m r).2 = some (.drop r) := rfl

theorem bufferFull_iff (c : Config) (rx : RxState) :
    bufferFull c rx = true ↔ c.maxBuf = some rx.buf.length := by
  simp [bufferFull]

/-- Append to a full buffer. -/
theorem append_of_full {c : Config} {rx : RxState} (b : Byte) (h : c.maxBuf = some rx.buf.length) :
    append c rx b = ({ mode := .drop, buf := [] }, some (.drop .overflow)) := by
  simp [append, (bufferFull_iff c rx).2 h, raiseDrop]

/-- Append to a buffer with room. -/
theorem append_of_room {c : Config} {rx : RxState} (b : Byte) (h : c.maxBuf ≠ some rx.buf.length) :
    append c rx b = ({ mode := .normal, buf := rx.buf ++ [b] }, none) := by
  have : bufferFull c rx = false := by simpa [bufferFull] using h
  simp [append, this, memPush]

/-- A bound is not reached where it is kept with one byte to spare. -/
theorem Config.not_full_of_fits_succ {c : Config} {n : Nat} (h : c.fits (n + 1) = true) :
    c.maxBuf ≠ some n := by
  unfold Config.fits at h
  intro hc
  simp [hc] at h

theorem Config.fits_mono {c : Config} {m n : Nat} (h : c.fits n = true) (hmn : m ≤ n) :
    c.fits m = true := by
  unfold Config.fits at *
  split at h <;> simp_all
  omega

/-- Where a bound is kept and not reached, one more byte fits. -/
theorem Config.fits_succ {c : Config} {n : Nat} (h : c.fits n = true) (hn : c.maxBuf ≠ some n) :
    c.fits (n + 1) = true := by
  unfold Config.fits at *
  split at h <;> simp_all
  omega

/-! ### The byte operations by mode -/

@[simp] theorem rxEndStep_state (rx : RxState) : (rxEndStep rx).1 = RxState.reset := by
  obtain ⟨m, b⟩ := rx
  cases m <;> cases b <;> rfl

theorem rxEndStep_normal_nil : rxEndStep ⟨.normal, []⟩ = (RxState.reset, none) := rfl

theorem rxEndStep_normal (buf : Bytes) (h : buf ≠ []) :
    rxEndStep ⟨.normal, buf⟩ = (RxState.reset, some (.blob buf)) := by
  cases buf with
  | nil => exact absurd rfl h
  | cons b bs => rfl

theorem rxEndStep_escaped (buf : Bytes) :
    rxEndStep ⟨.escaped, buf⟩ = (RxState.reset, some (.drop .badEscape)) := rfl

theorem rxEndStep_drop (buf : Bytes) : rxEndStep ⟨.drop, buf⟩ = (RxState.reset, none) := rfl

/-! ### The class of a byte -/

theorem feedByte_end (c : Config) (rx : RxState) : feedByte c rx c.endByte = rxEndStep rx := by
  simp [feedByte]

theorem feedByte_esc {c : Config} (h : c.wf = true) (rx : RxState) :
    feedByte c rx c.escByte = rxEscStep rx := by
  have : c.escByte ≠ c.endByte := by
    rintro e; simp [Config.wf, e] at h
  simp [feedByte, this]

theorem feedByte_escEnd {c : Config} (h : c.wf = true) (rx : RxState) :
    feedByte c rx c.escEndByte = rxEscEndStep c rx := by
  have h1 : c.escEndByte ≠ c.endByte := by rintro e; simp [Config.wf, e] at h
  have h2 : c.escEndByte ≠ c.escByte := by rintro e; simp [Config.wf, e] at h
  simp [feedByte, h1, h2]

theorem feedByte_escEsc {c : Config} (h : c.wf = true) (rx : RxState) :
    feedByte c rx c.escEscByte = rxEscEscStep c rx := by
  have h1 : c.escEscByte ≠ c.endByte := by rintro e; simp [Config.wf, e] at h
  have h2 : c.escEscByte ≠ c.escByte := by rintro e; simp [Config.wf, e] at h
  have h3 : c.escEscByte ≠ c.escEndByte := by rintro e; simp [Config.wf, e] at h
  simp [feedByte, h1, h2, h3]

theorem Config.isSpecial_eq_false {c : Config} {w : Byte} :
    c.isSpecial w = false ↔
      w ≠ c.endByte ∧ w ≠ c.escByte ∧ w ≠ c.escEndByte ∧ w ≠ c.escEscByte := by
  simp [Config.isSpecial, and_assoc]

theorem Config.isEscaped_eq_false {c : Config} {b : Byte} :
    c.isEscaped b = false ↔ b ≠ c.endByte ∧ b ≠ c.escByte := by
  simp [Config.isEscaped]

theorem feedByte_data {c : Config} {w : Byte} (h : c.isSpecial w = false) (rx : RxState) :
    feedByte c rx w = rxDataStep c rx w := by
  obtain ⟨h1, h2, h3, h4⟩ := Config.isSpecial_eq_false.1 h
  simp [feedByte, h1, h2, h3, h4]

/-- In NORMAL mode every byte but `END` and `ESC` is appended as it is (R73, R104). -/
theorem feedByte_normal_literal {c : Config} {w : Byte} (buf : Bytes)
    (h1 : w ≠ c.endByte) (h2 : w ≠ c.escByte) :
    feedByte c ⟨.normal, buf⟩ w = append c ⟨.normal, buf⟩ w := by
  unfold feedByte
  simp only [h1, h2, if_false]
  split
  · subst_vars; rfl
  · split
    · subst_vars; rfl
    · rfl

/-- In DROP mode every byte but `END` is ignored (R106). -/
theorem feedByte_drop {c : Config} {w : Byte} (buf : Bytes) (h : w ≠ c.endByte) :
    feedByte c ⟨.drop, buf⟩ w = (⟨.drop, buf⟩, none) := by
  unfold feedByte
  simp only [h, if_false]
  repeat' split
  all_goals rfl

/-- Running the class of a wire byte is FEED's step on that byte. -/
theorem exec_classifyRx (s : State) (w : Byte) :
    exec (classifyRx s.config w) s = .next (s.receiveByte (feedByte s.config s.rx w)) := by
  unfold classifyRx feedByte
  repeat' split
  all_goals rfl

/-- Everything one wire byte can do: the state is closed, opens an escape, stays, grows by one byte, or is emptied by
a discard. -/
theorem feedByte_cases (c : Config) (rx : RxState) (w : Byte) :
    (w = c.endByte ∧ feedByte c rx w = rxEndStep rx) ∨
    (w ≠ c.endByte ∧ rx.mode = .normal ∧ w = c.escByte ∧
      feedByte c rx w = ({ rx with mode := .escaped }, none)) ∨
    (w ≠ c.endByte ∧ rx.mode = .drop ∧ feedByte c rx w = (rx, none)) ∨
    (w ≠ c.endByte ∧ rx.mode ≠ .drop ∧ ∃ b, feedByte c rx w = append c rx b) ∨
    (w ≠ c.endByte ∧ rx.mode = .escaped ∧ feedByte c rx w = raiseDrop .drop .badEscape) := by
  by_cases h1 : w = c.endByte
  · left; subst h1; exact ⟨rfl, feedByte_end c rx⟩
  · right
    obtain ⟨m, buf⟩ := rx
    cases m with
    | drop => right; left; exact ⟨h1, rfl, feedByte_drop buf h1⟩
    | normal =>
      by_cases h2 : w = c.escByte
      · left; exact ⟨h1, rfl, h2, by unfold feedByte; rw [if_neg h1, if_pos h2]; rfl⟩
      · right; right; left; exact ⟨h1, by simp, w, feedByte_normal_literal buf h1 h2⟩
    | escaped =>
      right; right
      by_cases h2 : w = c.escByte
      · right; exact ⟨h1, rfl, by unfold feedByte; rw [if_neg h1, if_pos h2]; rfl⟩
      · by_cases h3 : w = c.escEndByte
        · left
          exact ⟨h1, by simp, c.endByte, by
            unfold feedByte; rw [if_neg h1, if_neg h2, if_pos h3]; rfl⟩
        · by_cases h4 : w = c.escEscByte
          · left
            exact ⟨h1, by simp, c.escByte, by
              unfold feedByte; rw [if_neg h1, if_neg h2, if_neg h3, if_pos h4]; rfl⟩
          · right
            exact ⟨h1, rfl, by
              unfold feedByte; rw [if_neg h1, if_neg h2, if_neg h3, if_neg h4]; rfl⟩

/-! ### Chunks -/

@[simp] theorem feedChunk_nil (c : Config) (rx : RxState) : feedChunk c rx [] = (rx, []) := rfl

theorem feedChunk_cons (c : Config) (rx : RxState) (w : Byte) (ws : Bytes) :
    feedChunk c rx (w :: ws) =
      ((feedChunk c (feedByte c rx w).1 ws).1,
       (feedByte c rx w).2.toList ++ (feedChunk c (feedByte c rx w).1 ws).2) := rfl

/-- FEED is a left fold (R105 (ii)): feeding two chunks is feeding their concatenation. -/
theorem feedChunk_append (c : Config) (ws vs : Bytes) : ∀ rx,
    feedChunk c rx (ws ++ vs) =
      ((feedChunk c (feedChunk c rx ws).1 vs).1,
       (feedChunk c rx ws).2 ++ (feedChunk c (feedChunk c rx ws).1 vs).2) := by
  induction ws with
  | nil => intro rx; rfl
  | cons w ws ih => intro rx; simp [feedChunk_cons, ih]

/-- In DROP mode bytes other than `END` change nothing and raise nothing (R106). -/
theorem feedChunk_drop (c : Config) (buf : Bytes) (ws : Bytes) (h : c.endByte ∉ ws) :
    feedChunk c ⟨.drop, buf⟩ ws = (⟨.drop, buf⟩, []) := by
  induction ws with
  | nil => rfl
  | cons w ws ih =>
    simp only [List.mem_cons, not_or] at h
    rw [feedChunk_cons, feedByte_drop buf (Ne.symm h.1)]
    simp [ih h.2]

/-- The receive states of R28 (i), (ii). -/
def RxState.ok (c : Config) (rx : RxState) : Prop :=
  c.fits rx.buf.length = true ∧ (rx.mode = .drop → rx.buf = [])

/-- The framer events of R35, R107 (iv). -/
def FramerEvent.ok (c : Config) (e : FramerEvent) : Prop := (Output.framer e).legal c = true

theorem RxState.reset_ok (c : Config) : RxState.reset.ok c := by
  refine ⟨?_, fun _ => rfl⟩
  cases h : c.maxBuf <;> simp [Config.fits, h]

theorem RxState.emptied_ok (c : Config) (m : RxMode) : RxState.ok c ⟨m, []⟩ :=
  ⟨(RxState.reset_ok c).1, fun _ => rfl⟩

theorem append_ok {c : Config} {rx : RxState} (h : rx.ok c) (b : Byte) :
    (append c rx b).1.ok c ∧ ∀ e, (append c rx b).2 = some e → e.ok c := by
  by_cases hf : c.maxBuf = some rx.buf.length
  · rw [append_of_full b hf]
    exact ⟨RxState.emptied_ok c _, fun e he => by cases he; rfl⟩
  · rw [append_of_room b hf]
    refine ⟨⟨?_, fun he => by cases he⟩, fun e he => by cases he⟩
    simpa using Config.fits_succ h.1 hf

/-- One wire byte keeps the receive state within bounds and raises legal events. -/
theorem feedByte_ok {c : Config} {rx : RxState} (h : rx.ok c) (w : Byte) :
    (feedByte c rx w).1.ok c ∧ ∀ e, (feedByte c rx w).2 = some e → e.ok c := by
  rcases feedByte_cases c rx w with ⟨-, hw⟩ | ⟨-, -, -, hw⟩ | ⟨-, -, hw⟩ | ⟨-, -, b, hw⟩ | ⟨-, -, hw⟩ <;>
    rw [hw]
  · refine ⟨by simpa using RxState.reset_ok c, ?_⟩
    obtain ⟨m, buf⟩ := rx
    intro e he
    cases m with
    | normal =>
      cases buf with
      | nil => cases he
      | cons b bs => cases he; simpa [FramerEvent.ok, Output.legal] using h.1
    | escaped => cases he; rfl
    | drop => cases he
  · exact ⟨⟨h.1, fun he => by cases he⟩, fun e he => by cases he⟩
  · exact ⟨h, fun e he => by cases he⟩
  · exact append_ok h b
  · exact ⟨RxState.emptied_ok c _, fun e he => by cases he; rfl⟩

/-- A chunk keeps the receive state within bounds and raises legal events. -/
theorem feedChunk_ok {c : Config} (ws : Bytes) : ∀ {rx : RxState}, rx.ok c →
    (feedChunk c rx ws).1.ok c ∧ ∀ e ∈ (feedChunk c rx ws).2, e.ok c := by
  induction ws with
  | nil => intro rx h; exact ⟨h, by simp⟩
  | cons w ws ih =>
    intro rx h
    obtain ⟨h1, h2⟩ := feedByte_ok h w
    obtain ⟨h3, h4⟩ := ih h1
    refine ⟨h3, fun e he => ?_⟩
    rw [feedChunk_cons] at he
    rcases List.mem_append.1 he with he | he
    · exact h2 e (by simpa using he)
    · exact h4 e he

end Sys2Proof.Machine
end

