-- ==== Sys2Proof/Laws/Transmit.lean ====
section
/-! SUPPORT. What the escape map does, and what a receiver makes of escaped bytes (R64, R65 of 30_encoding.md,
R110-R114 of 41_framer_transmit.md). -/

namespace Sys2Proof.Machine

/-! ### The escape map -/

theorem escByteImage_end (c : Config) : escByteImage c c.endByte = [c.escByte, c.escEndByte] := by
  simp [escByteImage, escOfEnd]

theorem escByteImage_esc {c : Config} (h : c.wf = true) :
    escByteImage c c.escByte = [c.escByte, c.escEscByte] := by
  have : c.escByte ≠ c.endByte := by rintro e; simp [Config.wf, e] at h
  simp [escByteImage, escOfEsc, this]

theorem escByteImage_lit {c : Config} {b : Byte} (h : c.isEscaped b = false) :
    escByteImage c b = [b] := by
  obtain ⟨h1, h2⟩ := Config.isEscaped_eq_false.1 h
  simp [escByteImage, escOfLit, h1, h2]

/-- The image of the escape map never contains `END` (R64). -/
theorem end_not_mem_escByteImage {c : Config} (h : c.wf = true) (b : Byte) :
    c.endByte ∉ escByteImage c b := by
  unfold escByteImage
  simp only [Config.wf, Bool.and_eq_true, bne_iff_ne, ne_eq] at h
  split
  · simp [escOfEnd, h]
  · split
    · simp [escOfEsc, h]
    · rename_i h1 h2
      simpa [escOfLit] using fun e => h1 e.symm

@[simp] theorem escapeBytes_nil (c : Config) : escapeBytes c [] = [] := rfl

theorem escapeBytes_cons (c : Config) (b : Byte) (bs : Bytes) :
    escapeBytes c (b :: bs) = escByteImage c b ++ escapeBytes c bs := rfl

theorem escapeBytes_append (c : Config) (as bs : Bytes) :
    escapeBytes c (as ++ bs) = escapeBytes c as ++ escapeBytes c bs := by
  induction as with
  | nil => rfl
  | cons a as ih => simp [escapeBytes_cons, ih]

theorem escapeBytes_eq_flatMap (c : Config) (bs : Bytes) :
    escapeBytes c bs = bs.flatMap (escByteImage c) := by
  induction bs with
  | nil => rfl
  | cons b bs ih => simp [escapeBytes_cons, ih]

theorem end_not_mem_escapeBytes {c : Config} (h : c.wf = true) (bs : Bytes) :
    c.endByte ∉ escapeBytes c bs := by
  rw [escapeBytes_eq_flatMap]
  simpa using fun b _ => end_not_mem_escByteImage h b

/-! ### The receiver on escaped bytes -/

/-- A receiver in NORMAL mode with room takes the image of a byte as that byte. -/
theorem feedChunk_escByteImage {c : Config} (h : c.wf = true) (buf : Bytes) (b : Byte)
    (hr : c.maxBuf ≠ some buf.length) :
    feedChunk c ⟨.normal, buf⟩ (escByteImage c b) = (⟨.normal, buf ++ [b]⟩, []) := by
  by_cases h1 : b = c.endByte
  · subst h1
    rw [escByteImage_end]
    simp only [feedChunk_cons, feedByte_esc h, rxEscStep, feedByte_escEnd h, rxEscEndStep,
      append_of_room (rx := ⟨.escaped, buf⟩) _ hr, feedChunk_nil]
    rfl
  · by_cases h2 : b = c.escByte
    · subst h2
      rw [escByteImage_esc h]
      simp only [feedChunk_cons, feedByte_esc h, rxEscStep, feedByte_escEsc h, rxEscEscStep,
        append_of_room (rx := ⟨.escaped, buf⟩) _ hr, feedChunk_nil]
      rfl
    · rw [escByteImage_lit (Config.isEscaped_eq_false.2 ⟨h1, h2⟩)]
      simp only [feedChunk_cons, feedByte_normal_literal buf h1 h2,
        append_of_room (rx := ⟨.normal, buf⟩) _ hr, feedChunk_nil]
      rfl

/-- A receiver in NORMAL mode takes escaped bytes that fit as the bytes themselves. -/
theorem feedChunk_escapeBytes {c : Config} (h : c.wf = true) (bs : Bytes) : ∀ buf : Bytes,
    c.fits (buf.length + bs.length) = true →
    feedChunk c ⟨.normal, buf⟩ (escapeBytes c bs) = (⟨.normal, buf ++ bs⟩, []) := by
  induction bs with
  | nil => intro buf _; simp
  | cons b bs ih =>
    intro buf hf
    have hr : c.maxBuf ≠ some buf.length :=
      Config.not_full_of_fits_succ (Config.fits_mono hf (by simp))
    rw [escapeBytes_cons, feedChunk_append, feedChunk_escByteImage h buf b hr]
    rw [ih (buf ++ [b]) (by simpa [Nat.add_assoc, Nat.add_comm 1] using hf)]
    simp

/-- `END` on whatever state: the reset state, and at most one event. -/
theorem feedChunk_end (c : Config) (rx : RxState) :
    feedChunk c rx [c.endByte] = (RxState.reset, (rxEndStep rx).2.toList) := by
  rw [feedChunk_cons, feedByte_end]
  simp

/-- An escaped blob that fits and its `END`, from the reset state. -/
theorem feedChunk_escaped_end {c : Config} (h : c.wf = true) (blob : Bytes) (hne : blob ≠ [])
    (hf : c.fits blob.length = true) :
    feedChunk c RxState.reset (escapeBytes c blob ++ [c.endByte]) = (RxState.reset, [.blob blob]) := by
  rw [feedChunk_append, show RxState.reset = ⟨.normal, []⟩ from rfl,
    feedChunk_escapeBytes h blob [] (by simpa using hf), feedChunk_end]
  rw [List.nil_append, rxEndStep_normal blob hne]
  rfl

/-- A wire packet from any state: what the leading `END` closes, then the blob. -/
theorem feedChunk_wirePacket {c : Config} (h : c.wf = true) (rx : RxState) (blob : Bytes)
    (hne : blob ≠ []) (hf : c.fits blob.length = true) :
    feedChunk c rx (wirePacket c blob) =
      (RxState.reset, (rxEndStep rx).2.toList ++ [.blob blob]) := by
  unfold wirePacket
  rw [List.append_assoc, feedChunk_append, feedChunk_end, feedChunk_escaped_end h blob hne hf]

end Sys2Proof.Machine
end

