-- ==== Sys2Proof/Laws/Exec.lean ====
section
/-! SUPPORT. The meanings in terms of the shared operations, the classes of a byte, and runs. -/

namespace Sys2Proof.Machine

/-! ### The classes of a byte (R63, R64) -/

theorem decode_rxsym (c : Config) (w : Byte) : decode c (.rxsym w) = .ok (classifyRx c w) := rfl

theorem decode_txsym (c : Config) (b : Byte) : decode c (.txsym b) = .ok (classifyTx c b) := rfl

/-- The transmit class of a byte emits that byte's image under the escape map. -/
theorem exec_classifyTx (s : State) (b : Byte) :
    exec (classifyTx s.config b) s = .next (s.emit (.wire (escByteImage s.config b))) := by
  unfold classifyTx escByteImage
  repeat' split
  all_goals rfl

/-- A selector 0xC-0xF decodes to nothing, whatever its operands. -/
theorem decodeOpsel_reserved {sel : BitVec 4} (h : 12 ≤ sel.toNat) (args : Args) :
    decodeOpsel sel args = .error (.reservedSelector sel) := by
  unfold decodeOpsel
  split <;> first | omega | simp_all

/-! ### The meanings -/

theorem exec_feed (chunk : Bytes) (s : State) : exec (.feed chunk) s =
    .next (s.receive (feedChunk s.config s.rx chunk).1 ((feedChunk s.config s.rx chunk).2.map .framer)) := rfl

theorem exec_rxPoll (chunk : Bytes) (s : State) : exec (.rxPoll chunk) s =
    .next (s.receive (feedChunk s.config s.rx chunk).1
      ((feedChunk s.config s.rx chunk).2.map (fun e => .poll (pollEvent e)))) := rfl

theorem exec_send (blob : Bytes) (s : State) :
    exec (.send blob) s = .next (s.emit (.wire (wirePacket s.config blob))) := rfl

theorem exec_encode (a b : Byte) (p : Bytes) (s : State) :
    exec (.encode a b p) s = .next (s.emit (.blob (encodeBlob a b p))) := rfl

theorem exec_decode (blob : Bytes) (s : State) :
    exec (.decode blob) s = .next (s.emit (.codec (decodeBlob blob))) := rfl

theorem exec_crc16 (bs : Bytes) (s : State) :
    exec (.crc16 bs) s = .next (s.emit (.code (crc16 bs))) := rfl

theorem exec_txFrame (a b : Byte) (p : Bytes) (s : State) :
    exec (.txFrame a b p) s = .next (s.emit (.wire (wirePacket s.config (encodeBlob a b p)))) := rfl

theorem exec_crcCheck {blob : Bytes} (h : 4 ≤ blob.length) (s : State) :
    exec (.crcCheck blob) s = .next (s.emit (.check (crcCheck blob))) := by
  simp [exec, execCrcCheck, Config.minBlob, Nat.not_lt.2 h]

/-! ### Runs -/

@[simp] theorem runOps_nil (s : State) : runOps [] s = .next s := rfl

theorem runOps_cons_of_next {i : Instr} {s t : State} (h : exec i s = .next t) (is : List Instr) :
    runOps (i :: is) s = runOps is t := by
  simp only [runOps, h, andThen]

end Sys2Proof.Machine
end

