-- ==== Sys2Proof/Machine/Script.lean ====
section
/-! DEFINITION. The stimulus script of R71 (30_encoding.md): one operation a line, `;` starts a comment, bytes are two
hexadecimal digits separated by blanks. A script is read into the operations of a run, and a run's results are written
as R71 writes them. What R71 leaves open (the case of a digit, what counts as a blank) is notes/assumptions/14.md. -/

namespace Sys2Proof.Machine

/-- Why a line of a script is no operation. -/
inductive ScriptError where
  /-- The first word is no operation of R71. -/
  | unknownOperation (word : List Char)
  /-- The words after it are not the operands R71 gives the operation. -/
  | badOperands (operation : List Char)
  deriving DecidableEq, Repr

/-- Space and tab separate words. -/
def isBlank (ch : Char) : Bool := ch == ' ' || ch == '\t' || ch == '\r'

/-- The value of a hexadecimal digit, in either case. -/
def hexDigit (ch : Char) : Option Nat :=
  let n := ch.toNat
  if 48 ≤ n ∧ n ≤ 57 then some (n - 48)
  else if 65 ≤ n ∧ n ≤ 70 then some (n - 55)
  else if 97 ≤ n ∧ n ≤ 102 then some (n - 87)
  else none

/-- A byte: two hexadecimal digits, the first the high one. -/
def hexByte : List Char → Option Byte
  | [hi, lo] =>
    match hexDigit hi, hexDigit lo with
    | some h, some l => some (BitVec.ofNat 8 (16 * h + l))
    | _, _ => none
  | _ => none

/-- A sequence of bytes. -/
def hexBytes : List (List Char) → Option Bytes
  | [] => some []
  | w :: ws =>
    match hexByte w, hexBytes ws with
    | some b, some bs => some (b :: bs)
    | _, _ => none

/-- A line up to its comment. -/
def uncomment : List Char → List Char
  | [] => []
  | ch :: cs => if ch == ';' then [] else ch :: uncomment cs

/-- The words of a line; `cur` is the word in progress, last character first. -/
def wordsFrom (cur : List Char) : List Char → List (List Char)
  | [] => if cur.isEmpty then [] else [cur.reverse]
  | ch :: cs =>
    if isBlank ch then
      if cur.isEmpty then wordsFrom [] cs else cur.reverse :: wordsFrom [] cs
    else wordsFrom (ch :: cur) cs

/-- The lines of a text; `cur` is the line in progress, last character first. -/
def linesFrom (cur : List Char) : List Char → List (List Char)
  | [] => [cur.reverse]
  | ch :: cs => if ch == '\n' then cur.reverse :: linesFrom [] cs else linesFrom (ch :: cur) cs

/-- The operation of a line whose operand is one byte sequence. -/
def bytesLine (op : List Char) (mk : Bytes → Instr) (ws : List (List Char)) : Except ScriptError Instr :=
  match hexBytes ws with
  | some bs => .ok (mk bs)
  | none => .error (.badOperands op)

/-- The operation of a line whose operands are `sap_id`, `msg_id` and a payload. -/
def frameLine (op : List Char) (mk : Byte → Byte → Bytes → Instr) (ws : List (List Char)) :
    Except ScriptError Instr :=
  match hexBytes ws with
  | some (sapId :: msgId :: payload) => .ok (mk sapId msgId payload)
  | some [] => .error (.badOperands op)
  | some [_] => .error (.badOperands op)
  | none => .error (.badOperands op)

/-- The operation a line's words name (R71). -/
def parseWords (op : List Char) (ws : List (List Char)) : Except ScriptError Instr :=
  if op = ['R', 'E', 'S', 'E', 'T'] then
    match ws with
    | [] => .ok .reset
    | _ :: _ => .error (.badOperands op)
  else if op = ['F', 'E', 'E', 'D'] then bytesLine op .feed ws
  else if op = ['P', 'O', 'L', 'L'] then bytesLine op .rxPoll ws
  else if op = ['S', 'E', 'N', 'D'] then bytesLine op .send ws
  else if op = ['E', 'N', 'C', 'O', 'D', 'E'] then frameLine op .encode ws
  else if op = ['D', 'E', 'C', 'O', 'D', 'E'] then bytesLine op .decode ws
  else if op = ['C', 'R', 'C', '1', '6'] then bytesLine op .crc16 ws
  else if op = ['T', 'X', 'F'] then frameLine op .txFrame ws
  else .error (.unknownOperation op)

/-- One line: no operation if it is blank or only a comment. -/
def parseLine (line : List Char) : Except ScriptError (Option Instr) :=
  match wordsFrom [] (uncomment line) with
  | [] => .ok none
  | op :: ws =>
    match parseWords op ws with
    | .ok i => .ok (some i)
    | .error e => .error e

/-- The operations of a list of lines, up to the first bad line. -/
def parseLines : List (List Char) → Except ScriptError (List Instr)
  | [] => .ok []
  | l :: ls =>
    match parseLine l, parseLines ls with
    | .ok (some i), .ok is => .ok (i :: is)
    | .ok none, .ok is => .ok is
    | .ok _, .error e => .error e
    | .error e, _ => .error e

/-- The operations of a script. -/
def parseScript (text : List Char) : Except ScriptError (List Instr) := parseLines (linesFrom [] text)

/-! ### Writing results -/

/-- A hexadecimal digit, upper case. -/
def hexChar (n : Nat) : Char := Char.ofNat (if n < 10 then 48 + n else 55 + n)

/-- A byte as two digits. -/
def showByte (b : Byte) : List Char := [hexChar (b.toNat / 16), hexChar (b.toNat % 16)]

/-- A 16-bit value as four digits. -/
def showU16 (t : U16) : List Char := showByte (trailerHi t) ++ showByte (trailerLo t)

/-- Texts with a separator between them. -/
def joinWith (sep : List Char) : List (List Char) → List Char
  | [] => []
  | [x] => x
  | x :: y :: rest => x ++ sep ++ joinWith sep (y :: rest)

/-- Bytes separated by blanks. -/
def showBytes (bs : Bytes) : List Char := joinWith [' '] (bs.map showByte)

/-- The name of a discard. -/
def showDrop : DropReason → List Char
  | .badEscape => "Drop(BadEscape)".toList
  | .overflow => "Drop(Overflow)".toList

/-- A codec result. The two `Char.ofNat` are the opening and the closing brace. -/
def showCodec : CodecResult → List Char
  | .frame f => "Frame".toList ++ [Char.ofNat 123] ++ "sap=".toList ++ showByte f.sapId ++ ", msg=".toList ++
      showByte f.msgId ++ ", payload=[".toList ++ showBytes f.payload ++ "], trailer=".toList ++ showU16 f.trailer ++
      [Char.ofNat 125]
  | .tooShort => "TooShort".toList
  | .integrityMismatch => "IntegrityMismatch".toList

/-- One event or result. -/
def showOutput : Output → List Char
  | .framer (.blob b) => "Blob[".toList ++ showBytes b ++ [']']
  | .framer (.drop r) => showDrop r
  | .poll (.codec r) => showCodec r
  | .poll (.drop r) => showDrop r
  | .wire bs => showBytes bs
  | .blob bs => showBytes bs
  | .codec r => showCodec r
  | .code t => showU16 t
  | .acc t => showU16 t
  | .check v => if v then "true".toList else "false".toList

/-- An event sequence: a comma-separated list, `(none)` when empty. -/
def showOutputs (os : List Output) : List Char :=
  match os with
  | [] => "(none)".toList
  | _ :: _ => joinWith [',', ' '] (os.map showOutput)

end Sys2Proof.Machine
end

