-- ==== Sys2Proof/Tests/Slice0.lean ====
section
/-! SUPPORT. The model's own tests. Expected values are the spec's: 95_test_vectors.md (by section or vector), the byte
table of 43_crc16.md section 4, the tables of 30_encoding.md. After them, for every obligation with hypotheses, a
witness that meets them. -/

namespace Sys2Proof.Tests

open Sys2Proof Sys2Proof.Machine

/-- An instance with the default framing bytes, in a given receive state. -/
def st (mode : RxMode) (buf : Bytes) (maxBuf : Option Nat) : State :=
  { State.reset with config := { Config.default with maxBuf := maxBuf }, rx := ⟨mode, buf⟩ }

/-- The state of a next outcome. -/
def after (o : Host.Outcome State Fault Refusal) : Option State :=
  match o with
  | .next s => some s
  | .fault _ => none
  | .refused _ => none

/-- The observation after a next outcome (R183 (iii)). -/
def seen (o : Host.Outcome State Fault Refusal) : Option (List Output × RxMode × Bytes) :=
  (after o).map State.observation

/-- What an operation answers from the reset state. -/
def answer (i : Instr) : Option (List Output) := (after (exec i State.reset)).map State.outputs

theorem next_of_after (o : Host.Outcome State Fault Refusal) (t : State) (h : after o = some t) : o = .next t := by
  cases o <;> simp_all [after]

/-- What a run emits from the reset state with a given `MAX_BUF`, and the receive state it ends in. -/
def fed (maxBuf : Option Nat) (is : List Instr) : Option (List Output × RxMode × Bytes) :=
  seen (runOps is (st .normal [] maxBuf))

/-! ### Well-formedness: an ill-formed term for each check, refused -/

theorem test_illFormed_rxData_end :
    Instr.wf Config.default (.rxData 0xC0#8) = false := by decide

theorem test_illFormed_rxData_esc :
    Instr.wf Config.default (.rxData 0xDB#8) = false := by decide

theorem test_illFormed_rxData_escEnd :
    Instr.wf Config.default (.rxData 0xDC#8) = false := by decide

theorem test_illFormed_rxData_escEsc :
    Instr.wf Config.default (.rxData 0xDD#8) = false := by decide

theorem test_illFormed_txbLit_end :
    Instr.wf Config.default (.txbLit 0xC0#8) = false := by decide

theorem test_illFormed_txbLit_esc :
    Instr.wf Config.default (.txbLit 0xDB#8) = false := by decide

theorem test_wellFormed_neighbours :
    Instr.wf Config.default (.rxData 0x00#8) = true ∧
    Instr.wf Config.default (.txbLit 0xDC#8) = true ∧
    Instr.wf Config.default (.txbLit 0xDD#8) = true := by decide

theorem test_config_default :
    Config.default.wf = true := by decide

/-- R7: no two framing bytes may be equal. -/
theorem test_config_notDistinct :
    Config.wf { Config.default with escByte := 0xC0#8 } = false ∧
    Config.wf { Config.default with escEndByte := 0xC0#8 } = false ∧
    Config.wf { Config.default with escEscByte := 0xC0#8 } = false ∧
    Config.wf { Config.default with escEndByte := 0xDB#8 } = false ∧
    Config.wf { Config.default with escEscByte := 0xDB#8 } = false ∧
    Config.wf { Config.default with escEscByte := 0xDC#8 } = false := by decide

theorem test_crcCheck_short :
    Instr.resultStated (.crcCheck [0, 0, 0]) = false ∧
    Instr.resultStated (.crcCheck [0, 0, 0, 0]) = true := by decide

/-! ### Decoding (R63, R64, R68) -/

/-- What the default parameters decode a request to. -/
def decoded (r : Request) : Option Instr :=
  match decode Config.default r with
  | .ok i => some i
  | .error _ => none


theorem test_decode_rxEnd :
    decoded (.rxsym 0b11000000#8) = some (.rxEnd) := by decide

theorem test_decode_rxEsc :
    decoded (.rxsym 0b11011011#8) = some (.rxEsc) := by decide

theorem test_decode_rxEscEnd :
    decoded (.rxsym 0b11011100#8) = some (.rxEscEnd) := by decide

theorem test_decode_rxEscEsc :
    decoded (.rxsym 0b11011101#8) = some (.rxEscEsc) := by decide

theorem test_decode_rxData :
    decoded (.rxsym 0b00000000#8) = some (.rxData 0) := by decide

theorem test_decode_txbEnd :
    decoded (.txsym 0b11000000#8) = some (.txbEnd) := by decide

theorem test_decode_txbEsc :
    decoded (.txsym 0b11011011#8) = some (.txbEsc) := by decide

theorem test_decode_txbLit :
    decoded (.txsym 0b11011100#8) = some (.txbLit 0xDC#8) := by decide

theorem test_decode_reset :
    decoded (.opsel 0b0000#4 (.none)) = some (.reset) := by decide

theorem test_decode_feed :
    decoded (.opsel 0b0001#4 (.bytes [1, 2])) = some (.feed [1, 2]) := by decide

theorem test_decode_send :
    decoded (.opsel 0b0010#4 (.bytes [1, 2])) = some (.send [1, 2]) := by decide

theorem test_decode_encode :
    decoded (.opsel 0b0011#4 (.frame 1 2 [3])) = some (.encode 1 2 [3]) := by decide

theorem test_decode_decode :
    decoded (.opsel 0b0100#4 (.bytes [1, 2])) = some (.decode [1, 2]) := by decide

theorem test_decode_crc16 :
    decoded (.opsel 0b0101#4 (.bytes [1, 2])) = some (.crc16 [1, 2]) := by decide

theorem test_decode_txFrame :
    decoded (.opsel 0b0110#4 (.frame 1 2 [3])) = some (.txFrame 1 2 [3]) := by decide

theorem test_decode_rxPoll :
    decoded (.opsel 0b0111#4 (.bytes [1, 2])) = some (.rxPoll [1, 2]) := by decide

theorem test_decode_crcInit :
    decoded (.opsel 0b1000#4 (.none)) = some (.crcInit) := by decide

theorem test_decode_crcUpdate :
    decoded (.opsel 0b1001#4 (.accByte 0x1234#16 5)) = some (.crcUpdate 0x1234#16 5) := by decide

theorem test_decode_crcFinal :
    decoded (.opsel 0b1010#4 (.acc 0x1234#16)) = some (.crcFinal 0x1234#16) := by decide

theorem test_decode_crcCheck :
    decoded (.opsel 0b1011#4 (.bytes [0, 0, 0x47, 0x0F])) = some (.crcCheck [0, 0, 0x47, 0x0F]) := by decide

/-- R68: the reserved selectors. -/
theorem test_decode_reserved :
    decoded (.opsel 0b1100#4 .none) = none ∧
    decoded (.opsel 0b1101#4 .none) = none ∧
    decoded (.opsel 0b1110#4 .none) = none ∧
    decoded (.opsel 0b1111#4 .none) = none := by decide

theorem test_decode_wrongShape :
    decoded (.opsel 0x0#4 (.bytes [])) = none ∧
    decoded (.opsel 0x3#4 (.bytes [1, 2])) = none := by decide

/-! ### Opcode-table words -/

theorem test_decodeTableWord_symbols :
    decodeTableWord 8 0xC0 = some .rxEnd ∧
    decodeTableWord 8 0xDB = some .rxEsc ∧
    decodeTableWord 8 0xDC = some .rxEscEnd ∧
    decodeTableWord 8 0xDD = some .rxEscEsc ∧
    decodeTableWord 8 0x55 = some (.rxData 0x55#8) := by decide

theorem test_decodeTableWord_selectors :
    decodeTableWord 8 0x0 = some .reset ∧
    decodeTableWord 8 0x6 = some (.txFrame 0 0 []) ∧
    decodeTableWord 8 0xB = some (.crcCheck [0, 0, 0, 0]) ∧
    decodeTableWord 8 0xC = none ∧
    decodeTableWord 8 0x100 = none := by decide

theorem test_withFetchWord_runs :
    after (step (State.reset.withFetchWord 8 0x8)) = after (exec .crcInit State.reset) := by decide

theorem test_withFetchWord_reserved :
    after (step (State.reset.withFetchWord 8 0xC)) = none := by decide

theorem test_encode_isTheWord :
    encode Config.default .rxEnd = .rxsym 0xC0#8 ∧
    encode Config.default .txbEsc = .txsym 0xDB#8 ∧
    encode Config.default (.rxPoll [1]) = .opsel 0x7#4 (.bytes [1]) := by decide

/-! ### Reset and the step -/

/-- R30. -/
theorem test_reset_state :
    State.reset.observation = ([], .normal, []) ∧ State.reset.config.maxBuf = none := by decide

/-- R170. -/
theorem test_reset_fromEscaped :
    seen (exec .reset (st .escaped [1, 2] (some 4))) = some ([], .normal, []) := by decide

theorem test_reset_fromDrop :
    seen (exec .reset (st .drop [] (some 4))) = some ([], .normal, []) := by decide

/-- R183 (i). -/
theorem test_step_idle :
    after (step (st .escaped [1] none)) = some (st .escaped [1] none) := by decide

theorem test_step_runsNext :
    after (step { st .normal [1] none with inbox := [.rxsym 0xDB#8, .rxsym 0xDC#8] }) =
      some { st .escaped [1] none with inbox := [.rxsym 0xDC#8] } := by decide

/-! ### RX.* (95_test_vectors.md section 2.5) -/

theorem test_rxEnd_normal :
    seen (exec (.rxEnd) (st .normal [] none)) = some ([], .normal, []) ∧
    seen (exec (.rxEnd) (st .normal [0x01#8, 0x01#8, 0x16#8, 0x07#8] none)) = some ([.framer (.blob [0x01#8, 0x01#8, 0x16#8, 0x07#8])], .normal, []) := by decide

theorem test_rxEnd_otherModes :
    seen (exec (.rxEnd) (st .escaped [0x01#8] none)) = some ([.framer (.drop .badEscape)], .normal, []) ∧
    seen (exec (.rxEnd) (st .drop [] none)) = some ([], .normal, []) := by decide

theorem test_rxEsc :
    seen (exec (.rxEsc) (st .normal [0x01#8] none)) = some ([], .escaped, [0x01#8]) ∧
    seen (exec (.rxEsc) (st .escaped [0x01#8] none)) = some ([.framer (.drop .badEscape)], .drop, []) ∧
    seen (exec (.rxEsc) (st .drop [] none)) = some ([], .drop, []) := by decide

theorem test_rxEscEnd :
    seen (exec (.rxEscEnd) (st .normal [0x01#8] none)) = some ([], .normal, [0x01#8, 0xDC#8]) ∧
    seen (exec (.rxEscEnd) (st .escaped [0x01#8] none)) = some ([], .normal, [0x01#8, 0xC0#8]) := by decide

theorem test_rxEscEnd_full :
    seen (exec (.rxEscEnd) (st .escaped [0x01#8, 0x02#8, 0x03#8, 0x04#8] (some 4))) = some ([.framer (.drop .overflow)], .drop, []) ∧
    seen (exec (.rxEscEnd) (st .escaped [0x01#8, 0x02#8, 0x03#8] (some 4))) = some ([], .normal, [0x01#8, 0x02#8, 0x03#8, 0xC0#8]) := by decide

theorem test_rxEscEsc :
    seen (exec (.rxEscEsc) (st .normal [0x01#8] none)) = some ([], .normal, [0x01#8, 0xDD#8]) ∧
    seen (exec (.rxEscEsc) (st .escaped [0x01#8] none)) = some ([], .normal, [0x01#8, 0xDB#8]) := by decide

theorem test_rxEscEsc_full :
    seen (exec (.rxEscEsc) (st .normal [0x01#8, 0x02#8, 0x03#8, 0x04#8] (some 4))) = some ([.framer (.drop .overflow)], .drop, []) ∧
    seen (exec (.rxEscEsc) (st .drop [] (some 4))) = some ([], .drop, []) := by decide

theorem test_rxData :
    seen (exec (.rxData 0x02#8) (st .normal [0x01#8] none)) = some ([], .normal, [0x01#8, 0x02#8]) ∧
    seen (exec (.rxData 0x05#8) (st .normal [0x01#8, 0x02#8, 0x03#8, 0x04#8] (some 4))) = some ([.framer (.drop .overflow)], .drop, []) := by decide

theorem test_rxData_otherModes :
    seen (exec (.rxData 0x00#8) (st .escaped [0x01#8] none)) = some ([.framer (.drop .badEscape)], .drop, []) ∧
    seen (exec (.rxData 0x55#8) (st .drop [] none)) = some ([], .drop, []) := by decide

/-! ### FEED and RX_POLL (95_test_vectors.md section 2.6) -/

/-- F2. -/
theorem test_feed_split :
    fed none [.feed [0xC0#8, 0x01#8, 0x01#8], .feed [0x16#8, 0x07#8, 0xC0#8]] =
      some ([.framer (.blob [0x01#8, 0x01#8, 0x16#8, 0x07#8])], .normal, []) := by decide +kernel

/-- F19. -/
theorem test_feed_overflowOnEscapedByte :
    fed (some 4) [.feed [0xC0#8, 0x01#8, 0x02#8, 0x03#8, 0x04#8, 0xDB#8, 0xDC#8, 0x05#8, 0xC0#8]] =
      some ([.framer (.drop .overflow)], .normal, []) := by decide +kernel

/-- F22. -/
theorem test_feed_zeroCapacity :
    fed (some 0) [.feed [0x01#8, 0xC0#8, 0xC0#8]] =
      some ([.framer (.drop .overflow)], .normal, []) := by decide +kernel

/-- F3. -/
theorem test_rxPoll_splitEscape :
    fed none [.rxPoll [0xC0#8, 0x01#8, 0x06#8, 0x00#8, 0xDB#8], .rxPoll [0xDC#8, 0xC8#8, 0xC0#8]] =
      some ([.poll (.codec (.frame ⟨0x01#8, 0x06#8, [0x00#8], 0xC8C0#16⟩))], .normal, []) := by decide +kernel

/-- F20. -/
theorem test_rxPoll_escInsideDrop :
    fed none [.rxPoll [0xC0#8, 0x01#8, 0xDB#8, 0x00#8, 0xDB#8, 0xC0#8, 0x01#8, 0x01#8, 0x16#8, 0x07#8, 0xC0#8]] =
      some ([.poll (.drop .badEscape), .poll (.codec (.frame ⟨0x01#8, 0x01#8, [], 0x0716#16⟩))], .normal, []) := by decide +kernel

/-- F12. -/
theorem test_rxPoll_overflowThenFrame :
    fed (some 4) [.rxPoll [0xC0#8, 0x01#8, 0x02#8, 0x03#8, 0x04#8, 0x05#8], .rxPoll [0x06#8, 0x07#8, 0xC0#8, 0x01#8, 0x01#8, 0x16#8, 0x07#8, 0xC0#8]] =
      some ([.poll (.drop .overflow), .poll (.codec (.frame ⟨0x01#8, 0x01#8, [], 0x0716#16⟩))], .normal, []) := by decide +kernel

/-- F15. -/
theorem test_rxPoll_mismatchThenFrame :
    fed none [.rxPoll [0xC0#8, 0x01#8, 0x01#8, 0x16#8, 0x06#8, 0xC0#8, 0xC0#8, 0x01#8, 0x01#8, 0x16#8, 0x07#8, 0xC0#8]] =
      some ([.poll (.codec .integrityMismatch), .poll (.codec (.frame ⟨0x01#8, 0x01#8, [], 0x0716#16⟩))], .normal, []) := by decide +kernel

/-- F14. -/
theorem test_rxPoll_shortBlobs :
    fed none [.rxPoll [0xC0#8, 0x01#8, 0xC0#8, 0x01#8, 0x01#8, 0xC0#8, 0x01#8, 0x01#8, 0x16#8, 0xC0#8]] =
      some ([.poll (.codec .tooShort), .poll (.codec .tooShort), .poll (.codec .tooShort)], .normal, []) := by decide +kernel

/-! ### TXB.*, SEND, ENCODE, TX_FRAME (95_test_vectors.md section 2.2) -/

theorem test_txbEnd :
    answer (.txbEnd) = some [.wire [0xDB#8, 0xDC#8]] := by decide +kernel

theorem test_txbEsc :
    answer (.txbEsc) = some [.wire [0xDB#8, 0xDD#8]] := by decide +kernel

theorem test_txbLit :
    answer (.txbLit 0xDC#8) = some [.wire [0xDC#8]] := by decide +kernel

theorem test_send_short :
    answer (.send []) = some [.wire [0xC0#8, 0xC0#8]] ∧
    answer (.send [0xC0#8]) = some [.wire [0xC0#8, 0xDB#8, 0xDC#8, 0xC0#8]] ∧
    answer (.send [0xDB#8, 0xDC#8]) = some [.wire [0xC0#8, 0xDB#8, 0xDD#8, 0xDC#8, 0xC0#8]] := by decide +kernel

theorem test_send_everySpecialByte :
    answer (.send [0xC0#8, 0xDB#8, 0xDC#8, 0xDD#8]) = some [.wire [0xC0#8, 0xDB#8, 0xDC#8, 0xDB#8, 0xDD#8, 0xDC#8, 0xDD#8, 0xC0#8]] := by decide +kernel

theorem test_encode :
    answer (.encode 0x01#8 0x01#8 []) = some [.blob [0x01#8, 0x01#8, 0x16#8, 0x07#8]] ∧
    answer (.encode 0x01#8 0x02#8 [0x00#8, 0xC0#8, 0xDB#8, 0xDC#8, 0xDD#8]) = some [.blob [0x01#8, 0x02#8, 0x00#8, 0xC0#8, 0xDB#8, 0xDC#8, 0xDD#8, 0x70#8, 0x7D#8]] := by decide +kernel

theorem test_txFrame_specialPayload :
    answer (.txFrame 0x01#8 0x02#8 [0x00#8, 0xC0#8, 0xDB#8, 0xDC#8, 0xDD#8]) = some [.wire [0xC0#8, 0x01#8, 0x02#8, 0x00#8, 0xDB#8, 0xDC#8, 0xDB#8, 0xDD#8, 0xDC#8, 0xDD#8, 0x70#8, 0x7D#8, 0xC0#8]] ∧
    answer (.txFrame 0xC0#8 0xDB#8 []) = some [.wire [0xC0#8, 0xDB#8, 0xDC#8, 0xDB#8, 0xDD#8, 0xB3#8, 0xAD#8, 0xC0#8]] := by decide +kernel

/-- Each trailer byte equal to `END`, then each equal to `ESC`. -/
theorem test_txFrame_specialTrailer :
    answer (.txFrame 0x01#8 0x06#8 [0x00#8]) = some [.wire [0xC0#8, 0x01#8, 0x06#8, 0x00#8, 0xDB#8, 0xDC#8, 0xC8#8, 0xC0#8]] ∧
    answer (.txFrame 0x01#8 0x07#8 [0x01#8]) = some [.wire [0xC0#8, 0x01#8, 0x07#8, 0x01#8, 0x91#8, 0xDB#8, 0xDC#8, 0xC0#8]] ∧
    answer (.txFrame 0x01#8 0x59#8 []) = some [.wire [0xC0#8, 0x01#8, 0x59#8, 0xDB#8, 0xDD#8, 0xD9#8, 0xC0#8]] ∧
    answer (.txFrame 0x01#8 0x62#8 [0x01#8]) = some [.wire [0xC0#8, 0x01#8, 0x62#8, 0x01#8, 0x7C#8, 0xDB#8, 0xDD#8, 0xC0#8]] := by decide +kernel

/-! ### DECODE, CRC.CHECK (95_test_vectors.md section 2.3) -/

theorem test_decode_errors :
    answer (.decode [0x01#8, 0x01#8, 0x16#8]) = some [.codec .tooShort] ∧
    answer (.decode [0x01#8, 0x01#8, 0x07#8, 0x16#8]) = some [.codec .integrityMismatch] ∧
    answer (.decode [0x00#8, 0x00#8, 0x00#8, 0x00#8]) = some [.codec .integrityMismatch] := by decide +kernel

theorem test_decode_frames :
    answer (.decode [0x01#8, 0x01#8, 0x16#8, 0x07#8]) = some [.codec (.frame ⟨0x01#8, 0x01#8, [], 0x0716#16⟩)] ∧
    answer (.decode [0xFF#8, 0xFF#8, 0xFF#8, 0xFF#8]) = some [.codec (.frame ⟨0xFF#8, 0xFF#8, [], 0xFFFF#16⟩)] ∧
    answer (.decode [0x01#8, 0x02#8, 0x00#8, 0xC0#8, 0xDB#8, 0xDC#8, 0xDD#8, 0x70#8, 0x7D#8]) = some [.codec (.frame ⟨0x01#8, 0x02#8, [0x00#8, 0xC0#8, 0xDB#8, 0xDC#8, 0xDD#8], 0x7D70#16⟩)] := by decide +kernel

theorem test_crcCheck :
    answer (.crcCheck [0x01#8, 0x02#8, 0x00#8, 0xA0#8, 0xAF#8]) = some [.check true] ∧
    answer (.crcCheck [0x81#8, 0x01#8, 0x16#8, 0x07#8]) = some [.check false] := by decide +kernel

/-! ### CRC (95_test_vectors.md section 2.1) -/

/-- R131. -/
theorem test_crcPoly_reflected :
    Config.crcPoly.reverse = Config.crcPolyReflected := by decide

theorem test_crcInit :
    answer (.crcInit) = some [.acc 0xFFFF#16] := by decide +kernel

theorem test_crcUpdate :
    answer (.crcUpdate 0xFFFF#16 0x01#8) = some [.acc 0x1E0E#16] ∧
    answer (.crcUpdate 0x1E0E#16 0x01#8) = some [.acc 0xF8E9#16] ∧
    answer (.crcUpdate 0xFFFF#16 0x00#8) = some [.acc 0x0F87#16] ∧
    answer (.crcUpdate 0xFFFF#16 0xFF#8) = some [.acc 0x00FF#16] ∧
    answer (.crcUpdate 0x0000#16 0x00#8) = some [.acc 0x0000#16] ∧
    answer (.crcUpdate 0x0000#16 0x80#8) = some [.acc 0x8408#16] := by decide +kernel

theorem test_crcFinal :
    answer (.crcFinal 0xFFFF#16) = some [.code 0x0000#16] ∧
    answer (.crcFinal 0xF8E9#16) = some [.code 0x0716#16] ∧
    answer (.crcFinal 0x0000#16) = some [.code 0xFFFF#16] ∧
    answer (.crcFinal 0xF0B8#16) = some [.code 0x0F47#16] := by decide +kernel

theorem test_crc16 :
    answer (.crc16 []) = some [.code 0x0000#16] ∧
    answer (.crc16 [0xFF#8]) = some [.code 0xFF00#16] ∧
    answer (.crc16 [0x01#8, 0x02#8]) = some [.code 0x358D#16] ∧
    answer (.crc16 [0x02#8, 0x01#8]) = some [.code 0x2D7E#16] ∧
    answer (.crc16 [0x31#8, 0x32#8, 0x33#8, 0x34#8, 0x35#8, 0x36#8, 0x37#8, 0x38#8, 0x39#8]) = some [.code 0x906E#16] ∧
    answer (.crc16 [0x01#8, 0x01#8, 0x16#8, 0x07#8]) = some [.code 0x0F47#16] := by decide +kernel

/-- CRC.UPDATE of `n` bytes from `i` on, each on accumulator 0. -/
def crcRow (i n : Nat) : List Nat :=
  (List.range' i n).map (fun k => (crcUpdate 0 (BitVec.ofNat 8 k)).toNat)

/-- The byte table of 43_crc16.md section 4. -/
theorem test_crcByteTable_00 :
    crcRow 0x00 64 =
      [0x0000, 0x1189, 0x2312, 0x329B, 0x4624, 0x57AD, 0x6536, 0x74BF] ++
      [0x8C48, 0x9DC1, 0xAF5A, 0xBED3, 0xCA6C, 0xDBE5, 0xE97E, 0xF8F7] ++
      [0x1081, 0x0108, 0x3393, 0x221A, 0x56A5, 0x472C, 0x75B7, 0x643E] ++
      [0x9CC9, 0x8D40, 0xBFDB, 0xAE52, 0xDAED, 0xCB64, 0xF9FF, 0xE876] ++
      [0x2102, 0x308B, 0x0210, 0x1399, 0x6726, 0x76AF, 0x4434, 0x55BD] ++
      [0xAD4A, 0xBCC3, 0x8E58, 0x9FD1, 0xEB6E, 0xFAE7, 0xC87C, 0xD9F5] ++
      [0x3183, 0x200A, 0x1291, 0x0318, 0x77A7, 0x662E, 0x54B5, 0x453C] ++
      [0xBDCB, 0xAC42, 0x9ED9, 0x8F50, 0xFBEF, 0xEA66, 0xD8FD, 0xC974] := by decide +kernel

theorem test_crcByteTable_40 :
    crcRow 0x40 64 =
      [0x4204, 0x538D, 0x6116, 0x709F, 0x0420, 0x15A9, 0x2732, 0x36BB] ++
      [0xCE4C, 0xDFC5, 0xED5E, 0xFCD7, 0x8868, 0x99E1, 0xAB7A, 0xBAF3] ++
      [0x5285, 0x430C, 0x7197, 0x601E, 0x14A1, 0x0528, 0x37B3, 0x263A] ++
      [0xDECD, 0xCF44, 0xFDDF, 0xEC56, 0x98E9, 0x8960, 0xBBFB, 0xAA72] ++
      [0x6306, 0x728F, 0x4014, 0x519D, 0x2522, 0x34AB, 0x0630, 0x17B9] ++
      [0xEF4E, 0xFEC7, 0xCC5C, 0xDDD5, 0xA96A, 0xB8E3, 0x8A78, 0x9BF1] ++
      [0x7387, 0x620E, 0x5095, 0x411C, 0x35A3, 0x242A, 0x16B1, 0x0738] ++
      [0xFFCF, 0xEE46, 0xDCDD, 0xCD54, 0xB9EB, 0xA862, 0x9AF9, 0x8B70] := by decide +kernel

theorem test_crcByteTable_80 :
    crcRow 0x80 64 =
      [0x8408, 0x9581, 0xA71A, 0xB693, 0xC22C, 0xD3A5, 0xE13E, 0xF0B7] ++
      [0x0840, 0x19C9, 0x2B52, 0x3ADB, 0x4E64, 0x5FED, 0x6D76, 0x7CFF] ++
      [0x9489, 0x8500, 0xB79B, 0xA612, 0xD2AD, 0xC324, 0xF1BF, 0xE036] ++
      [0x18C1, 0x0948, 0x3BD3, 0x2A5A, 0x5EE5, 0x4F6C, 0x7DF7, 0x6C7E] ++
      [0xA50A, 0xB483, 0x8618, 0x9791, 0xE32E, 0xF2A7, 0xC03C, 0xD1B5] ++
      [0x2942, 0x38CB, 0x0A50, 0x1BD9, 0x6F66, 0x7EEF, 0x4C74, 0x5DFD] ++
      [0xB58B, 0xA402, 0x9699, 0x8710, 0xF3AF, 0xE226, 0xD0BD, 0xC134] ++
      [0x39C3, 0x284A, 0x1AD1, 0x0B58, 0x7FE7, 0x6E6E, 0x5CF5, 0x4D7C] := by decide +kernel

theorem test_crcByteTable_C0 :
    crcRow 0xC0 64 =
      [0xC60C, 0xD785, 0xE51E, 0xF497, 0x8028, 0x91A1, 0xA33A, 0xB2B3] ++
      [0x4A44, 0x5BCD, 0x6956, 0x78DF, 0x0C60, 0x1DE9, 0x2F72, 0x3EFB] ++
      [0xD68D, 0xC704, 0xF59F, 0xE416, 0x90A9, 0x8120, 0xB3BB, 0xA232] ++
      [0x5AC5, 0x4B4C, 0x79D7, 0x685E, 0x1CE1, 0x0D68, 0x3FF3, 0x2E7A] ++
      [0xE70E, 0xF687, 0xC41C, 0xD595, 0xA12A, 0xB0A3, 0x8238, 0x93B1] ++
      [0x6B46, 0x7ACF, 0x4854, 0x59DD, 0x2D62, 0x3CEB, 0x0E70, 0x1FF9] ++
      [0xF78F, 0xE606, 0xD49D, 0xC514, 0xB1AB, 0xA022, 0x92B9, 0x8330] ++
      [0x7BC7, 0x6A4E, 0x58D5, 0x495C, 0x3DE3, 0x2C6A, 0x1EF1, 0x0F78] := by decide +kernel

/-! ### The reassembly buffer, the ports, the codes -/

/-- R45. -/
theorem test_append :
    append (st .escaped [1] (some 2)).config ⟨.escaped, [1]⟩ 2 = (⟨.normal, [1, 2]⟩, none) ∧
    append (st .escaped [1] (some 1)).config ⟨.escaped, [1]⟩ 2 = (⟨.drop, []⟩, some (.drop .overflow)) := by decide

/-- R46. -/
theorem test_extract :
    extract ⟨.normal, [1, 2]⟩ = ([1, 2], ⟨.normal, []⟩) := by decide

/-- R40. -/
theorem test_memory :
    (⟨.normal, [7, 8]⟩ : RxState).cells = [(0, 7), (1, 8)] ∧
    Memory.wf (⟨.normal, [7, 8]⟩ : RxState).cells = true ∧
    Memory.wf [(1, 7), (1, 8)] = false := by decide

/-- R143, R165. -/
theorem test_ports :
    (fed none [.send [0xC0#8], .feed [0x01#8, 0xC0#8], .decode [1], .txbLit 5]).map (fun o =>
      (State.rxOut { State.reset with outputs := o.1 }, State.txOut { State.reset with outputs := o.1 })) =
      some ([.framer (.blob [0x01#8]), .codec .tooShort], [0xC0#8, 0xDB#8, 0xDC#8, 0xC0#8, 5]) := by decide

/-- R66. -/
theorem test_trailer :
    assembleTrailer 0x16#8 0x07#8 = 0x0716#16 ∧
    (trailerLo 0x0716#16, trailerHi 0x0716#16) = (0x16#8, 0x07#8) := by decide

/-! ### The stimulus script (R71) -/

/-- The operations of a script, if it is one. -/
def scriptOps (text : String) : Option (List Instr) :=
  match parseScript text.toList with
  | .ok is => some is
  | .error _ => none

theorem test_script :
    scriptOps "RESET\nPOLL C0 01 DB   ; escape pending\n; only a comment\nTXF 01 06 0a\n" =
      some [.reset, .rxPoll [0xC0#8, 0x01#8, 0xDB#8], .txFrame 1 6 [0x0A#8]] := by decide +kernel

theorem test_script_bad :
    scriptOps "JUMP" = none ∧
    scriptOps "FEED 1" = none ∧
    scriptOps "ENCODE 01" = none := by decide +kernel

theorem test_script_results :
    showOutputs [] = "(none)".toList ∧
    showOutputs [.poll (.drop .overflow), .poll (.codec (.frame ⟨1, 6, [0, 0xC0#8], 0xC8C0#16⟩))] =
      "Drop(Overflow), Frame".toList ++ [Char.ofNat 123] ++
      "sap=01, msg=06, payload=[00 C0], trailer=C8C0".toList ++ [Char.ofNat 125] := by decide +kernel

/-! ### Witnesses: the hypotheses of each obligation, met together by concrete inputs -/

open Sys2Proof.Statements

/-- `s` with outputs already made. -/
def out (s : State) (os : List Output) : State := { s with outputs := os }

theorem witness_ResetRestoresTheResetState :
    exec .reset (st .escaped [1] none) = .next (st .normal [] none) ∧
    exec .rxEnd (st .drop [] none) = .next (st .normal [] none) := ⟨rfl, rfl⟩

theorem witness_EndClosesTheFrameInEveryMode :
    ((st .normal [] none).rx.mode = .normal ∧ (st .normal [] none).rx.buf = []) ∧
    ((st .normal [1] none).rx.mode = .normal ∧ (st .normal [1] none).rx.buf ≠ []) ∧
    (st .escaped [1] none).rx.mode = .escaped ∧ (st .drop [] none).rx.mode = .drop ∧
    ((st .normal [1, 2] (some 2)).bounded ∧
      exec .rxEnd (st .normal [1, 2] (some 2)) =
        .next (out (st .normal [] (some 2)) [.framer (.blob [1, 2])])) ∧
    (exec .rxEsc (out (st .normal [1] none) [.framer (.blob [2])]) =
        .next (out (st .escaped [1] none) [.framer (.blob [2])]) ∧
      Output.framer (.blob [2]) ∈ (out (st .escaped [1] none) [.framer (.blob [2])]).outputs) :=
  ⟨by decide, by decide, by decide, by decide, ⟨by decide, rfl⟩, rfl, by decide⟩

theorem witness_EscOpensAnEscapeOrIsBad :
    (st .normal [1] none).config.wf = true ∧ (st .normal [1] none).rx.mode = .normal ∧
    (st .escaped [1] none).rx.mode = .escaped ∧ (st .drop [] none).rx.mode = .drop := by decide

theorem witness_EscEndYieldsTheDelimiterByte :
    ((st .escaped [1] (some 2)).rx.mode = .escaped ∧ (st .escaped [1] (some 2)).config.maxBuf ≠ some 1) ∧
    ((st .normal [1] none).rx.mode = .normal ∧ (st .normal [1] none).config.maxBuf ≠ some 1) ∧
    ((st .escaped [1] (some 1)).rx.mode ≠ .drop ∧ (st .escaped [1] (some 1)).config.maxBuf = some 1) ∧
    ((st .normal [] (some 0)).rx.mode ≠ .drop ∧ (st .normal [] (some 0)).config.maxBuf = some 0) ∧
    (st .drop [] none).rx.mode = .drop ∧
    ((st .escaped [1] none).config.wf = true ∧
      decode (st .escaped [1] none).config (.rxsym 0xDC#8) = .ok .rxEscEnd ∧
      exec .rxEscEnd (st .escaped [1] none) = .next (st .normal [1, 0xC0#8] none) ∧
      0xC0#8 ∉ (st .escaped [1] none).rx.buf ∧ 0xC0#8 ∈ (st .normal [1, 0xC0#8] none).rx.buf) :=
  ⟨by decide, by decide, by decide, by decide, by decide, by decide, rfl, rfl, by decide, by decide⟩

theorem witness_EscEscYieldsTheEscapeByte :
    ((st .escaped [1] (some 2)).rx.mode = .escaped ∧ (st .escaped [1] (some 2)).config.maxBuf ≠ some 1) ∧
    ((st .normal [1] none).rx.mode = .normal ∧ (st .normal [1] none).config.maxBuf ≠ some 1) ∧
    ((st .escaped [1] (some 1)).rx.mode ≠ .drop ∧ (st .escaped [1] (some 1)).config.maxBuf = some 1) ∧
    ((st .normal [] (some 0)).rx.mode ≠ .drop ∧ (st .normal [] (some 0)).config.maxBuf = some 0) ∧
    (st .drop [] none).rx.mode = .drop ∧
    ((st .escaped [1] none).config.wf = true ∧
      decode (st .escaped [1] none).config (.rxsym 0xDD#8) = .ok .rxEscEsc ∧
      exec .rxEscEsc (st .escaped [1] none) = .next (st .normal [1, 0xDB#8] none) ∧
      0xDB#8 ∉ (st .escaped [1] none).rx.buf ∧ 0xDB#8 ∈ (st .normal [1, 0xDB#8] none).rx.buf) :=
  ⟨by decide, by decide, by decide, by decide, by decide, by decide, rfl, rfl, by decide, by decide⟩

theorem witness_OtherBytesAreAppendedOrBad :
    (Instr.rxData 0xDE#8).wf (st .normal [1] (some 1)).config = true ∧
    ((st .normal [1] (some 2)).rx.mode = .normal ∧ (st .normal [1] (some 2)).config.maxBuf ≠ some 1) ∧
    ((st .normal [1] (some 1)).rx.mode = .normal ∧ (st .normal [1] (some 1)).config.maxBuf = some 1) ∧
    (st .escaped [1] none).rx.mode = .escaped ∧ (st .drop [] none).rx.mode = .drop := by decide

/-- The rows of R106 with `MAX_BUF = 1`; the hypotheses on the byte are met by the bytes named. -/
theorem witness_ReceiveTransitionTable :
    let c := (st .normal [] (some 1)).config
    c.wf = true ∧
    ((st .normal [] (some 1)).rx.buf.length = 0 ∧ 0xC0#8 = c.endByte) ∧
    (0 < (st .normal [1] (some 1)).rx.buf.length ∧ 0xDB#8 = c.escByte) ∧
    (0xDC#8 ≠ c.endByte ∧ 0xDC#8 ≠ c.escByte ∧ c.maxBuf ≠ some (st .normal [] (some 1)).rx.buf.length ∧
      c.maxBuf = some (st .normal [1] (some 1)).rx.buf.length) ∧
    (0xDC#8 = c.escEndByte ∧ 0xDD#8 = c.escEscByte ∧ (st .escaped [] (some 1)).rx.mode = .escaped) ∧
    (0xDB#8 ≠ c.endByte ∧ 0xDB#8 ≠ c.escEndByte ∧ 0xDB#8 ≠ c.escEscByte) ∧
    ((st .drop [] (some 1)).rx.mode = .drop ∧ (st .drop [] (some 1)).dropHoldsNothing) := by decide

theorem witness_AppendStoresAtTheLength :
    (st .normal [] (some 0)).config.maxBuf = some (st .normal [] (some 0)).rx.buf.length ∧
    (st .normal [] (some 1)).config.maxBuf ≠ some (st .normal [] (some 1)).rx.buf.length := by decide

theorem witness_ExtractReadsAllAndClears : 1 < (extract ⟨.normal, [1, 2]⟩).1.length := by decide

theorem witness_BufferCapacityIsExact :
    let s := st .normal [] (some 1)
    s.config.wf = true ∧ s.config.maxBuf = some 1 ∧ s.rx = RxState.reset ∧
    ([0xC0#8] : Bytes).length ≤ 1 ∧ ([0xC0#8] : Bytes) ≠ [] ∧ 1 < ([0xC0#8, 1] : Bytes).length := by decide

theorem witness_UnboundedBufferKeepsEverything :
    let s := st .normal [1] none
    s.config.wf = true ∧ s.config.maxBuf = none ∧ s.rx.mode = .normal := by decide

theorem witness_DropModeIgnoresAllButEnd :
    (st .drop [] none).rx.mode = .drop ∧ (st .drop [] none).config.endByte ∉ [0xDB#8, 0xDC#8] := by decide

theorem witness_BlobsAreTheUnescapedContent :
    let s := st .normal [] (some 2)
    s.config.wf = true ∧ s.rx = RxState.reset ∧ s.config.endByte ∉ [1, 0xDB#8, 0xDC#8] ∧
    unescape s.config [1, 0xDB#8, 0xDC#8] = some [1, 0xC0#8] ∧ s.config.fits 2 = true := by decide

theorem witness_OnlyEndEmitsABlob :
    let s := st .normal [1] none
    let t := out (st .normal [] none) [.framer (.blob [1])]
    Output.framer (.blob [1]) ∈ t.outputs ∧ Output.framer (.blob [1]) ∉ s.outputs ∧
    decode s.config (.rxsym 0xC0#8) = .ok .rxEnd ∧ exec .rxEnd s = .next t ∧
    exec (.feed [0xC0#8]) s = .next t := ⟨by decide, by decide, rfl, rfl, rfl⟩

theorem witness_OneByteRaisesAtMostOneEvent :
    let s := st .escaped [1] (some 1)
    s.config.wf = true ∧ decode s.config (.rxsym 0xDC#8) = .ok .rxEscEnd ∧
    exec .rxEscEnd s = .next (out (st .drop [] (some 1)) [.framer (.drop .overflow)]) ∧
    s.rx.mode = .escaped ∧ s.config.maxBuf = some s.rx.buf.length := ⟨by decide, rfl, rfl, rfl, rfl⟩

theorem witness_EscapePendingAndDroppingFlags :
    (let s := st .escaped [1] none
     s.config.wf = true ∧ decode s.config (.rxsym 0xDB#8) = .ok .rxEsc ∧
     exec .rxEsc s = .next (out (st .drop [] none) [.framer (.drop .badEscape)]) ∧
     escapePending s.rx = true ∧ dropping s.rx = false) ∧
    (let s := st .drop [] none
     decode s.config (.rxsym 0xC0#8) = .ok .rxEnd ∧ exec .rxEnd s = .next (st .normal [] none) ∧
     escapePending s.rx = false ∧ dropping s.rx = true) ∧
    (let s := st .escaped [1] none
     exec .reset s = .next (st .normal [] none) ∧
     inPort .crcInit ≠ some .rxIn ∧ Instr.crcInit ≠ .reset ∧
     exec .crcInit s = .next (out s [.acc 0xFFFF#16])) :=
  ⟨⟨by decide, rfl, rfl, rfl, rfl⟩, ⟨rfl, rfl, rfl, rfl⟩, rfl, by decide, by decide, rfl⟩

theorem witness_InvariantKeptByEveryStep :
    let s := st .normal [1] (some 1)
    let t := out (st .normal [] (some 1)) [.framer (.blob [1])]
    s.Inv ∧ exec .rxEnd s = .next t ∧
    ({ s with inbox := [.rxsym 0xC0#8] } : State).Inv ∧
    step { s with inbox := [.rxsym 0xC0#8] } = .next t := ⟨by decide, rfl, by decide, rfl⟩

theorem witness_TxbEscEmitsEscThenEscEsc : (st .normal [] none).config.wf = true := by decide

theorem witness_TxbLitEmitsTheByte :
    (Instr.txbLit 0xDC#8).wf (st .normal [] none).config = true ∧ (st .normal [] none).config.wf = true := by decide

theorem witness_EscapingIsUniquelyDecodable :
    let s := st .normal [] none
    s.config.wf = true ∧ decode s.config (.txsym 0xC0#8) = .ok .txbEnd ∧
    escaped s.config [0xDD#8] = escaped s.config [0xDD#8] ∧
    exec (.send [0xC0#8]) s = .next (out s [.wire [0xC0#8, 0xDB#8, 0xDC#8, 0xC0#8]]) :=
  ⟨by decide, rfl, rfl, rfl⟩

theorem witness_SendBuildsTheWirePacket : (st .escaped [1] (some 1)).config.wf = true := by decide

theorem witness_FramerRoundTrip :
    let s := st .normal [] (some 1)
    s.config.wf = true ∧ 1 ≤ ([0xC0#8] : Bytes).length ∧ s.config.fits 1 = true ∧
    exec (.send [0xC0#8]) s = .next (out s [.wire [0xC0#8, 0xDB#8, 0xDC#8, 0xC0#8]]) ∧
    s.rx = RxState.reset ∧
    ([[0xC0#8, 0xDB#8], [], [0xDC#8, 0xC0#8]] : List Bytes).flatten = [0xC0#8, 0xDB#8, 0xDC#8, 0xC0#8] :=
  ⟨by decide, by decide, by decide, rfl, rfl, rfl⟩

theorem witness_StreamsDeliverEveryBlobInOrder :
    let s := st .normal [] (some 2)
    s.config.wf = true ∧ s.rx = RxState.reset ∧
    ∀ B ∈ ([[1], [0xC0#8, 2]] : List Bytes), 1 ≤ B.length ∧ s.config.fits B.length = true := by decide

theorem witness_DecodeChecksLengthThenCode :
    ([1, 1, 0x16#8] : Bytes).length < 4 ∧ 4 ≤ ([1, 1, 0x16#8, 7] : Bytes).length ∧
    exec (.crc16 ([1, 1] ++ [])) State.reset = .next (out State.reset [.code 0x0716#16]) :=
  ⟨by decide, by decide, next_of_after _ _ (by decide +kernel)⟩

theorem witness_CodecRoundTrip :
    exec (.encode 1 1 []) State.reset = .next (out State.reset [.blob [1, 1, 0x16#8, 7]]) ∧
    exec (.crc16 ([1, 1] ++ [])) State.reset = .next (out State.reset [.code 0x0716#16]) ∧
    exec (.decode [1, 1, 0x16#8, 7]) State.reset =
      .next (out State.reset [.codec (.frame ⟨1, 1, [], 0x0716#16⟩)]) :=
  ⟨next_of_after _ _ (by decide +kernel), next_of_after _ _ (by decide +kernel),
    next_of_after _ _ (by decide +kernel)⟩

theorem witness_SingleBitFlipIsDetected :
    exec (.encode 1 1 []) State.reset = .next (out State.reset [.blob [1, 1, 0x16#8, 7]]) ∧
    3 < ([1, 1, 0x16#8, 7] : Bytes).length ∧ 7 < 8 :=
  ⟨next_of_after _ _ (by decide +kernel), by decide, by decide⟩

/-- Two bytes inverted: a burst of exactly 16 bits. -/
theorem witness_BurstOfSixteenBitsIsDetected :
    exec (.decode [1, 1, 0x16#8, 7]) State.reset =
      .next (out State.reset [.codec (.frame ⟨1, 1, [], 0x0716#16⟩)]) ∧
    ([1, 0xFE#8, 0xE9#8, 7] : Bytes).length = ([1, 1, 0x16#8, 7] : Bytes).length ∧
    ([1, 0xFE#8, 0xE9#8, 7] : Bytes) ≠ [1, 1, 0x16#8, 7] ∧
    ∀ k < 4, ∀ j < 8,
      (([1, 1, 0x16#8, 7] : Bytes).getD k 0).getLsbD j ≠ (([1, 0xFE#8, 0xE9#8, 7] : Bytes).getD k 0).getLsbD j →
      8 ≤ 8 * k + j ∧ 8 * k + j < 8 + 16 :=
  ⟨next_of_after _ _ (by decide +kernel), by decide, by decide, by decide +kernel⟩

/-- The table of R133's byte-table form: what CRC.UPDATE makes of each byte on accumulator 0. -/
theorem witness_CrcUpdateIsEightShiftSteps : ∀ i : Byte,
    exec (.crcUpdate 0 i) State.reset = .next (out State.reset [.acc (crcUpdate 0 i)]) := fun _ => rfl

theorem witness_Crc16IsInitUpdatesFinal : 1 < ([1, 1] : Bytes).length := by decide

theorem witness_CrcCheckIsTheResidueTest : 4 ≤ ([1, 1, 0x16#8, 7] : Bytes).length := by decide

theorem witness_CrcCheckRunsOnShortBlobs : ([] : Bytes).length < 4 ∧ ([1, 1, 0x16#8] : Bytes).length < 4 := by decide

theorem witness_CrcIsAffine :
    ([1, 1] : Bytes).length = ([1, 2] : Bytes).length ∧
    exec (.crc16 [1, 1]) State.reset = .next (out State.reset [.code 0x0716#16]) ∧
    exec (.crc16 [1, 2]) State.reset = .next (out State.reset [.code 0x358D#16]) ∧
    exec (.crc16 (List.replicate 2 0)) State.reset = .next (out State.reset [.code 0x0F47#16]) :=
  ⟨by decide, next_of_after _ _ (by decide +kernel), next_of_after _ _ (by decide +kernel),
    next_of_after _ _ (by decide +kernel)⟩

/-- The frame of both data-path statements, its packet cut inside the escape-free trailer; `MAX_BUF` is exactly the
blob's length. -/
theorem witness_PipelineRoundTrip :
    let s := st .normal [] (some 4)
    s.config.wf = true ∧ s.rx = RxState.reset ∧
    (1 ≤ ([9, 8, 7, 6] : Bytes).length ∧ s.config.fits ([9, 8, 7, 6] : Bytes).length = true ∧
      ([[0xC0#8, 9, 8], [7, 6, 0xC0#8]] : List Bytes).flatten =
        [s.config.endByte] ++ escaped s.config [9, 8, 7, 6] ++ [s.config.endByte]) ∧
    s.config.fits (([] : Bytes).length + 4) = true ∧
    exec (.txFrame 1 1 []) s = .next (out s [.wire [0xC0#8, 1, 1, 0x16#8, 7, 0xC0#8]]) ∧
    exec (.crc16 ([1, 1] ++ [])) s = .next (out s [.code 0x0716#16]) ∧
    ([[0xC0#8, 1, 1, 0x16#8], [7], [0xC0#8]] : List Bytes).flatten = [0xC0#8, 1, 1, 0x16#8, 7, 0xC0#8] :=
  ⟨by decide, rfl, by decide, by decide, next_of_after _ _ (by decide +kernel),
    next_of_after _ _ (by decide +kernel), rfl⟩

theorem witness_ErrorsNeverStopTheStream :
    let s := st .escaped [1] (some 4)
    s.config.wf = true ∧ s.config.fits (([] : Bytes).length + 4) = true ∧
    exec (.txFrame 1 1 []) s = .next (out s [.wire [0xC0#8, 1, 1, 0x16#8, 7, 0xC0#8]]) ∧
    exec (.crc16 ([1, 1] ++ [])) s = .next (out s [.code 0x0716#16]) :=
  ⟨by decide, by decide, next_of_after _ _ (by decide +kernel), next_of_after _ _ (by decide +kernel)⟩

theorem witness_EveryOperationCompletes :
    (st .drop [] (some 4)).config = { Config.default with maxBuf := some 4 } ∧
    (st .drop [] (some 4)).rx = ⟨.drop, []⟩ := by decide

theorem witness_TransmitSideIgnoresReceiveState :
    inPort (.send [1]) ≠ some .rxIn ∧ Instr.send [1] ≠ .reset ∧
    (st .escaped [1] none).config = Config.default := by decide

theorem witness_EventsAndPacketsUseTheirPorts :
    exec (.feed [0xC0#8]) (st .normal [1] none) = .next (out (st .normal [] none) [.framer (.blob [1])]) ∧
    exec (.rxPoll [0xC0#8]) (st .normal [1] none) =
      .next (out (st .normal [] none) [.poll (.codec .tooShort)]) ∧
    exec (.send []) (st .normal [1] none) = .next (out (st .normal [1] none) [.wire [0xC0#8, 0xC0#8]]) ∧
    exec (.txFrame 1 1 []) State.reset =
      .next (out State.reset [.wire [0xC0#8, 1, 1, 0x16#8, 7, 0xC0#8]]) ∧
    (exec .rxEnd (st .normal [1] none) = .next (out (st .normal [] none) [.framer (.blob [1])]) ∧
      Instr.rxEnd.wf (st .normal [1] none).config = true ∧ inPort .rxEnd = some .rxIn) ∧
    exec (.decode [1]) State.reset = .next (out State.reset [.codec .tooShort]) :=
  ⟨rfl, rfl, rfl, next_of_after _ _ (by decide +kernel), ⟨rfl, rfl, rfl⟩, rfl⟩

theorem witness_EveryOutcomeLeavesOnRxOut :
    let s := st .escaped [1] none
    s.config.wf = true ∧
    ((Instr.decode [1]).wf s.config = true ∧ (Instr.decode [1]).resultStated = true ∧
      exec (.decode [1]) s = .next (out s [.codec .tooShort])) ∧
    (Instr.rxEsc.wf s.config = true ∧ Instr.rxEsc.resultStated = true ∧
      exec .rxEsc s = .next (out (st .drop [] none) [.framer (.drop .badEscape)])) :=
  ⟨by decide, ⟨rfl, rfl, rfl⟩, rfl, rfl, rfl⟩

theorem witness_ParametersNeverChange :
    runSteps 2 { st .normal [1] none with inbox := [.rxsym 0xC0#8] } =
      .next (out (st .normal [] none) [.framer (.blob [1])]) := rfl

theorem witness_StepRunsTheDecodedOperation :
    ({ st .normal [1] none with inbox := [.rxsym 0xDB#8] } : State).inbox = .rxsym 0xDB#8 :: [] ∧
    decode (st .normal [1] none).config (.rxsym 0xDB#8) = .ok .rxEsc := ⟨rfl, rfl⟩

theorem witness_NothingAskedNothingChanges : (st .escaped [1] none).inbox = [] := rfl

theorem witness_OnlyUndecodableRequestsAreRefused :
    let r : Request := .opsel 0xC#4 .none
    let r' : Request := .opsel 0xB#4 .none
    let s : State := { State.reset with inbox := [r] }
    let s' : State := { State.reset with inbox := [r'] }
    (s.inbox = r :: [] ∧ decode s.config r = .error (.reservedSelector 0xC#4) ∧
      step s = .refused (.undecodable (.reservedSelector 0xC#4))) ∧
    (s'.inbox = r' :: [] ∧ decode s'.config r' = .error (.operandShape 0xB#4 .none) ∧
      step s' = .refused (.undecodable (.operandShape 0xB#4 .none))) :=
  ⟨⟨rfl, rfl, rfl⟩, rfl, rfl, rfl⟩

theorem witness_DecodeOfEncodeIsTheOperation :
    Config.default.wf = true ∧ (Instr.rxData 0#8).wf Config.default = true := by decide

theorem witness_EncodeOfDecodeIsTheRequest :
    decode Config.default (.txsym 0xDD#8) = .ok (.txbLit 0xDD#8) := rfl

theorem witness_WireByteClassesAreTheTables : Config.default.wf = true := by decide

theorem witness_SelectorsAreTheTables : 12 ≤ (0xC#4 : BitVec 4).toNat ∧ 12 ≤ (0xF#4 : BitVec 4).toNat := by decide

end Sys2Proof.Tests
end

section
/-! PROOFS. The escape map of the statements is the transmitter's, and a NORMAL receiver keeps escaped bytes that fit
(R8 of 00_scope.md, R176 of 70_reset_and_hazards.md). -/

namespace Sys2Proof.Machine

open Sys2Proof.Statements

/-- The statements' own escape map (R64) and the model's give the same wire bytes. -/
theorem escaped_eq_escapeBytes (c : Config) (bs : Bytes) : escaped c bs = escapeBytes c bs := by
  rw [escapeBytes_eq_flatMap]
  rfl

/-- An infinite `MAX_BUF` leaves room for every length (R8). -/
theorem Config.fits_of_unbounded {c : Config} (h : c.maxBuf = none) (n : Nat) : c.fits n = true := by
  simp [Config.fits, h]

/-- FEED of escaped bytes that fit behind the buffered ones: all are appended in NORMAL mode, nothing is emitted. -/
theorem exec_feed_escaped_of_fits {s : State} {data : Bytes} (hwf : s.config.wf = true)
    (hmode : s.rx.mode = .normal) (hfits : s.config.fits (s.rx.buf.length + data.length) = true) :
    exec (.feed (escaped s.config data)) s = .next { s with rx := ⟨.normal, s.rx.buf ++ data⟩ } := by
  have hrx : s.rx = ⟨.normal, s.rx.buf⟩ := by rw [← hmode]
  have hfeed : feedChunk s.config s.rx (escapeBytes s.config data) = (⟨.normal, s.rx.buf ++ data⟩, []) := by
    rw [hrx]
    exact feedChunk_escapeBytes hwf data s.rx.buf hfits
  rw [exec_feed, escaped_eq_escapeBytes, hfeed]
  simp [State.receive]

/-- Settles O14: with `MAX_BUF` infinite every length fits, so FEED keeps all of the data. -/
theorem unboundedBufferKeepsEverything : Obligations.UnboundedBufferKeepsEverything := by
  intro s data hwf hmax hmode
  exact exec_feed_escaped_of_fits hwf hmode (Config.fits_of_unbounded hmax _)

end Sys2Proof.Machine
end

section
/-! PROOFS. What one operation can do to a state (R24 of 10_state.md, R51 of 20_memory.md): it replaces the receive
state and appends outputs; with parameters and receive state in bounds, both are in bounds again. -/

namespace Sys2Proof.Machine

/-! ### What an operation outputs is legal (R34, R35) -/

/-- A Frame that DECODE answers is valid, so its result is legal. -/
theorem decodeBlob_legal (blob : Bytes) : (decodeBlob blob).legal = true := by
  cases h : decodeBlob blob with
  | frame f => simpa [CodecResult.legal, Frame.valid] using decodeBlob_frame_valid h
  | tooShort => rfl
  | integrityMismatch => rfl

/-- RX_POLL's event for a framer event is legal (R141). -/
theorem pollEvent_legal (c : Config) (e : FramerEvent) : (Output.poll (pollEvent e)).legal c = true := by
  cases e with
  | blob b => exact decodeBlob_legal b
  | drop r => rfl

/-- The event of a byte operation, taken as that operation's list of outputs. -/
theorem byteEvent_legal {c : Config} {ev : Option FramerEvent} (h : ∀ e, ev = some e → e.ok c) :
    ∀ o ∈ ev.toList.map Output.framer, o.legal c = true := by
  intro o ho
  obtain ⟨e, he, rfl⟩ := List.mem_map.1 ho
  exact h e (Option.mem_toList.1 he)

/-- RX.DATA keeps the receive state in bounds for every operand, a special byte too (R104). -/
theorem rxDataStep_ok {c : Config} {rx : RxState} (h : rx.ok c) (w : Byte) :
    (rxDataStep c rx w).1.ok c ∧ ∀ e, (rxDataStep c rx w).2 = some e → e.ok c := by
  cases hm : rx.mode with
  | normal => simpa only [rxDataStep, hm] using append_ok h w
  | escaped =>
    simp only [rxDataStep, hm, raiseDrop_state, raiseDrop_event]
    exact ⟨RxState.emptied_ok c _, fun e he => by cases he; rfl⟩
  | drop =>
    simp only [rxDataStep, hm]
    exact ⟨h, fun e he => by cases he⟩

/-! ### The effect of an operation -/

/-- An operation that replaces the receive state `rx` by `rx'` and outputs `os`, whatever else the machine holds, and
whose effect is in bounds where it starts in bounds. -/
def HasEffect (i : Instr) (c : Config) (rx rx' : RxState) (os : List Output) : Prop :=
  (∀ s : State, s.config = c → s.rx = rx → exec i s = .next (s.receive rx' os)) ∧
  (c.wf = true → rx.ok c → rx'.ok c ∧ ∀ o ∈ os, o.legal c = true)

/-- An operation that is one byte operation of the receiver. -/
theorem hasEffect_of_byte {i : Instr} {c : Config} {rx : RxState} {r : ByteResult}
    (hexec : ∀ s : State, s.config = c → s.rx = rx → exec i s = .next (s.receiveByte r))
    (hok : c.wf = true → rx.ok c → r.1.ok c ∧ ∀ e, r.2 = some e → e.ok c) :
    HasEffect i c rx r.1 (r.2.toList.map .framer) :=
  ⟨hexec, fun hwf h => (hok hwf h).imp_right byteEvent_legal⟩

/-- The operations of the receive framer. -/
theorem exec_hasEffect_of_rxIn {i : Instr} (hport : inPort i = some .rxIn) (c : Config) (rx : RxState) :
    ∃ rx' os, HasEffect i c rx rx' os := by
  cases i with
  | rxEnd =>
    exact ⟨_, _, hasEffect_of_byte (r := rxEndStep rx) (by rintro s rfl rfl; rfl)
      fun _ h => feedByte_end c rx ▸ feedByte_ok h c.endByte⟩
  | rxEsc =>
    exact ⟨_, _, hasEffect_of_byte (r := rxEscStep rx) (by rintro s rfl rfl; rfl)
      fun hwf h => feedByte_esc hwf rx ▸ feedByte_ok h c.escByte⟩
  | rxEscEnd =>
    exact ⟨_, _, hasEffect_of_byte (r := rxEscEndStep c rx) (by rintro s rfl rfl; rfl)
      fun hwf h => feedByte_escEnd hwf rx ▸ feedByte_ok h c.escEndByte⟩
  | rxEscEsc =>
    exact ⟨_, _, hasEffect_of_byte (r := rxEscEscStep c rx) (by rintro s rfl rfl; rfl)
      fun hwf h => feedByte_escEsc hwf rx ▸ feedByte_ok h c.escEscByte⟩
  | rxData w =>
    exact ⟨_, _, hasEffect_of_byte (r := rxDataStep c rx w) (by rintro s rfl rfl; rfl)
      fun _ h => rxDataStep_ok h w⟩
  | feed chunk =>
    refine ⟨(feedChunk c rx chunk).1, (feedChunk c rx chunk).2.map Output.framer,
      by rintro s rfl rfl; exact exec_feed chunk s, fun _ h => ?_⟩
    obtain ⟨hrx, hev⟩ := feedChunk_ok chunk h
    exact ⟨hrx, List.forall_mem_map.2 hev⟩
  | rxPoll chunk =>
    refine ⟨(feedChunk c rx chunk).1, (feedChunk c rx chunk).2.map (fun e => Output.poll (pollEvent e)),
      by rintro s rfl rfl; exact exec_rxPoll chunk s, fun _ h => ?_⟩
    exact ⟨(feedChunk_ok chunk h).1, List.forall_mem_map.2 fun e _ => pollEvent_legal c e⟩
  | _ => cases hport

/-- An operation outside the receive framer and RESET emits one legal output that the parameters alone determine, and
leaves the receive state as it is (R51 (iv), R54). -/
theorem exec_emits_of_not_rxIn {i : Instr} (hport : inPort i ≠ some .rxIn) (hreset : i ≠ .reset)
    (c : Config) :
    ∃ o : Output, o.legal c = true ∧ ∀ s : State, s.config = c → exec i s = .next (s.emit o) := by
  cases i with
  | txbEnd => exact ⟨.wire (escOfEnd c), rfl, by rintro s rfl; rfl⟩
  | txbEsc => exact ⟨.wire (escOfEsc c), rfl, by rintro s rfl; rfl⟩
  | txbLit b => exact ⟨.wire (escOfLit b), rfl, fun s _ => rfl⟩
  | send blob => exact ⟨.wire (wirePacket c blob), rfl, by rintro s rfl; exact exec_send blob s⟩
  | encode a b p => exact ⟨.blob (encodeBlob a b p), rfl, fun s _ => exec_encode a b p s⟩
  | decode blob => exact ⟨.codec (decodeBlob blob), decodeBlob_legal blob, fun s _ => exec_decode blob s⟩
  | crc16 bs => exact ⟨.code (crc16 bs), rfl, fun s _ => exec_crc16 bs s⟩
  | txFrame a b p =>
    exact ⟨.wire (wirePacket c (encodeBlob a b p)), rfl, by rintro s rfl; exact exec_txFrame a b p s⟩
  | crcInit => exact ⟨.acc crcInit, rfl, fun s _ => rfl⟩
  | crcUpdate acc b => exact ⟨.acc (crcUpdate acc b), rfl, fun s _ => rfl⟩
  | crcFinal acc => exact ⟨.code (crcFinal acc), rfl, fun s _ => rfl⟩
  | crcCheck blob =>
    exact ⟨.check (if blob.length < Config.minBlob then Config.crcCheckShort blob else crcCheck blob), rfl,
      fun s _ => rfl⟩
  | reset => exact absurd rfl hreset
  | _ => exact absurd rfl hport

/-- Every operation has an effect, which depends on the parameters and the receive state alone (R51 (iii), R183 (v)). -/
theorem exec_hasEffect (i : Instr) (c : Config) (rx : RxState) : ∃ rx' os, HasEffect i c rx rx' os := by
  by_cases hport : inPort i = some .rxIn
  · exact exec_hasEffect_of_rxIn hport c rx
  by_cases hreset : i = .reset
  · subst hreset
    refine ⟨RxState.reset, [], fun s _ _ => ?_, fun _ _ => ⟨RxState.reset_ok c, by simp⟩⟩
    simp [exec, execReset, State.receive]
  · obtain ⟨o, hlegal, hexec⟩ := exec_emits_of_not_rxIn hport hreset c
    refine ⟨rx, [o], ?_, fun _ h => ⟨h, by simpa using hlegal⟩⟩
    rintro s hc rfl
    exact hexec s hc

/-- What an operation that goes on did to its state. -/
theorem exec_next_cases {i : Instr} {s t : State} (h : exec i s = .next t) :
    ∃ rx' os, t = s.receive rx' os ∧
      (s.config.wf = true → s.rx.ok s.config → rx'.ok s.config ∧ ∀ o ∈ os, o.legal s.config = true) := by
  obtain ⟨rx', os, hexec, hok⟩ := exec_hasEffect i s.config s.rx
  rw [hexec s rfl rfl] at h
  cases h
  exact ⟨rx', os, rfl, hok⟩

/-- A step that goes on was idle, or ran the operation the owner's next request decodes to (R183). -/
theorem step_next_cases {s t : State} (h : step s = .next t) :
    (s.inbox = [] ∧ t = s) ∨
    ∃ r rest i, s.inbox = r :: rest ∧ decode s.config r = .ok i ∧
      exec i { s with inbox := rest } = .next t := by
  cases hin : s.inbox with
  | nil =>
    left
    simp only [step, State.fetch, hin] at h
    cases h
    exact ⟨rfl, rfl⟩
  | cons r rest =>
    right
    cases hd : decode s.config r with
    | error e => simp [step, State.fetch, hin, hd] at h
    | ok i => exact ⟨r, rest, i, rfl, hd, by simpa only [step, State.fetch, hin, hd] using h⟩

end Sys2Proof.Machine
end

section
/-! PROOFS. The invariant of the block, at reset and along every step (R28 of 10_state.md). -/

namespace Sys2Proof.Machine

/-- The invariant in terms of the receive states that R28 (i), (ii) allow. -/
theorem State.inv_iff (s : State) :
    s.Inv ↔ s.config.wf = true ∧ s.rx.ok s.config ∧ ∀ o ∈ s.outputs, o.legal s.config = true := by
  simp only [State.Inv, RxState.ok, and_assoc]

/-- An effect in bounds keeps the invariant. -/
theorem State.Inv.receive {s : State} (h : s.Inv) {rx' : RxState} {os : List Output}
    (hrx : rx'.ok s.config) (hos : ∀ o ∈ os, o.legal s.config = true) : (s.receive rx' os).Inv := by
  obtain ⟨hwf, -, hout⟩ := s.inv_iff.1 h
  exact (State.inv_iff _).2 ⟨hwf, hrx, List.forall_mem_append.2 ⟨hout, hos⟩⟩

theorem exec_preserves_inv {i : Instr} {s t : State} (h : s.Inv) (hexec : exec i s = .next t) : t.Inv := by
  obtain ⟨hwf, hrx, -⟩ := s.inv_iff.1 h
  obtain ⟨rx', os, rfl, hok⟩ := exec_next_cases hexec
  obtain ⟨hrx', hos⟩ := hok hwf hrx
  exact h.receive hrx' hos

theorem step_preserves_inv {s t : State} (h : s.Inv) (hstep : step s = .next t) : t.Inv := by
  obtain ⟨-, rfl⟩ | ⟨r, rest, i, -, -, hexec⟩ := step_next_cases hstep
  · exact h
  · exact exec_preserves_inv (s := { s with inbox := rest }) h hexec

/-- RX.END leaves the reset state of the receiver (R28 (iii)). -/
theorem exec_rxEnd_rx {s t : State} (h : exec .rxEnd s = .next t) : t.rx = RxState.reset := by
  cases h
  exact rxEndStep_state s.rx

/-- Settles O22: every operation's effect is in bounds, and a step runs one operation or none. -/
theorem invariantKeptByEveryStep : Obligations.InvariantKeptByEveryStep := by
  refine ⟨fun s t => step_preserves_inv, fun i s t => exec_preserves_inv, fun s t h => ?_⟩
  rw [exec_rxEnd_rx h]
  exact ⟨rfl, rfl⟩

/-- Settles O21, by evaluating the invariant on the reset state. -/
theorem invariantHoldsAtReset : Obligations.InvariantHoldsAtReset := by
  unfold Obligations.InvariantHoldsAtReset
  decide

end Sys2Proof.Machine
end

section
/-! PROOFS. The receive state after `END` and after reset, its two flag-like conditions, the numbers of the modes and
outcomes, and what no step changes (R23, R24, R29, R30, R33 of 10_state.md). -/

namespace Sys2Proof.Machine

/-! ### Reset and resynchronisation -/

/-- Settles O1: the fields of `State.reset`, read off. -/
theorem resetStateIsEmptyAndNormal : Obligations.ResetStateIsEmptyAndNormal :=
  ⟨rfl, rfl, rfl, rfl, rfl, rfl⟩

/-- A chunk whose last byte is `END` leaves the reset state (R107 (iii)). -/
theorem feedChunk_append_end_rx (c : Config) (rx : RxState) (chunk : Bytes) :
    (feedChunk c rx (chunk ++ [c.endByte])).1 = RxState.reset := by
  rw [feedChunk_append, feedChunk_end]

/-- Settles O16: FEED and RX_POLL leave the receive state of the chunk, which ends in `END`. -/
theorem endAlwaysResynchronises : Obligations.EndAlwaysResynchronises := fun s chunk =>
  ⟨⟨_, exec_feed _ s, feedChunk_append_end_rx s.config s.rx chunk⟩,
   ⟨_, exec_rxPoll _ s, feedChunk_append_end_rx s.config s.rx chunk⟩⟩

/-! ### Escape pending and dropping (R23) -/

theorem escapePending_eq_true {rx : RxState} : escapePending rx = true ↔ rx.mode = .escaped := by
  simp [escapePending]

theorem dropping_eq_true {rx : RxState} : dropping rx = true ↔ rx.mode = .drop := by
  simp [dropping]

/-- An append never leaves an escape pending. -/
theorem append_mode_ne_escaped (c : Config) (rx : RxState) (b : Byte) : (append c rx b).1.mode ≠ .escaped := by
  by_cases hf : c.maxBuf = some rx.buf.length
  · simp [append_of_full b hf]
  · simp [append_of_room b hf]

/-- An append drops exactly when it raises a discard. -/
theorem append_mode_drop_iff (c : Config) (rx : RxState) (b : Byte) :
    (append c rx b).1.mode = .drop ↔ ∃ r, (append c rx b).2 = some (.drop r) := by
  by_cases hf : c.maxBuf = some rx.buf.length
  · simp [append_of_full b hf]
  · simp [append_of_room b hf]

/-- `ESC` in NORMAL mode opens an escape (R101). -/
theorem feedByte_esc_of_normal {c : Config} (hwf : c.wf = true) {rx : RxState} (hm : rx.mode = .normal) :
    feedByte c rx c.escByte = ({ rx with mode := .escaped }, none) := by
  simp [feedByte_esc hwf, rxEscStep, hm]

/-- A wire byte leaves an escape pending exactly when it is `ESC` in NORMAL mode. -/
theorem feedByte_mode_escaped_iff {c : Config} (hwf : c.wf = true) (rx : RxState) (w : Byte) :
    (feedByte c rx w).1.mode = .escaped ↔ rx.mode = .normal ∧ w = c.escByte := by
  constructor
  · intro h
    rcases feedByte_cases c rx w with ⟨-, hw⟩ | ⟨-, hm, hesc, -⟩ | ⟨-, hm, hw⟩ | ⟨-, -, b, hw⟩ | ⟨-, -, hw⟩
    · simp [hw] at h
    · exact ⟨hm, hesc⟩
    · simp [hw, hm] at h
    · exact absurd (hw ▸ h) (append_mode_ne_escaped c rx b)
    · simp [hw] at h
  · rintro ⟨hm, rfl⟩
    simp [feedByte_esc_of_normal hwf hm]

/-- A wire byte leaves the receiver dropping exactly when it is not `END` and the receiver was dropping or discards. -/
theorem feedByte_mode_drop_iff (c : Config) (rx : RxState) (w : Byte) :
    (feedByte c rx w).1.mode = .drop ↔
      w ≠ c.endByte ∧ (rx.mode = .drop ∨ ∃ r, (feedByte c rx w).2 = some (.drop r)) := by
  rcases feedByte_cases c rx w with
    ⟨hend, hw⟩ | ⟨-, hm, -, hw⟩ | ⟨hne, hm, hw⟩ | ⟨hne, hm, b, hw⟩ | ⟨hne, -, hw⟩ <;> rw [hw]
  · simp [hend]
  · simp [hm]
  · simp [hne, hm]
  · simp [hne, hm, append_mode_drop_iff]
  · simp [hne]

/-- A byte operation's outputs end in a discard exactly when the byte raised it. -/
theorem State.receiveByte_outputs_eq_drop (s : State) (r : ByteResult) (d : DropReason) :
    (s.receiveByte r).outputs = s.outputs ++ [.framer (.drop d)] ↔ r.2 = some (.drop d) := by
  obtain ⟨rx, ev⟩ := r
  cases ev <;> simp

/-- A wire byte's operation is FEED's step on that byte. -/
theorem exec_of_decode_rxsym {s t : State} {w : Byte} {i : Instr}
    (hdec : decode s.config (.rxsym w) = .ok i) (hexec : exec i s = .next t) :
    t = s.receiveByte (feedByte s.config s.rx w) := by
  cases hdec
  rw [exec_classifyRx] at hexec
  cases hexec
  rfl

/-- Settles O20, from the modes a wire byte can leave; outside the receive framer and RESET the receive state stays. -/
theorem escapePendingAndDroppingFlags : Obligations.EscapePendingAndDroppingFlags := by
  refine ⟨fun s t w i hwf hdec hexec => ?_, fun s t h => ?_, fun i s t hport hreset h => ?_⟩
  · rw [exec_of_decode_rxsym hdec hexec]
    simp only [← Bool.not_eq_true, escapePending_eq_true, dropping_eq_true, State.receiveByte_rx,
      State.receiveByte_outputs_eq_drop, feedByte_mode_escaped_iff hwf, feedByte_mode_drop_iff]
    refine ⟨fun hm => by simp [hm], fun _ => trivial, fun hm => by simp [hm], fun hm => by simp [hm]⟩
  · cases h
    exact ⟨rfl, rfl⟩
  · obtain ⟨o, -, hexec⟩ := exec_emits_of_not_rxIn hport hreset s.config
    rw [hexec s rfl] at h
    cases h
    exact ⟨rfl, rfl⟩

/-! ### Numbers (R33, R150) -/

/-- Settles O57: each number by evaluation, and 3 excluded mode by mode. -/
theorem codesOfModesAndOutcomes : Obligations.CodesOfModesAndOutcomes := by
  refine ⟨rfl, rfl, rfl, fun m => ?_, fun _ => rfl, rfl, rfl, rfl, rfl⟩
  cases m <;> decide

/-! ### What no step changes (R24, R29) -/

/-- `t` has the parameters of `s`, and its outputs are those of `s` and possibly more. -/
def State.Extends (t s : State) : Prop :=
  t.config = s.config ∧ ∃ os : List Output, t.outputs = s.outputs ++ os

theorem State.Extends.refl (s : State) : s.Extends s := ⟨rfl, [], by simp⟩

theorem State.Extends.trans {s t u : State} (hut : u.Extends t) (hts : t.Extends s) : u.Extends s := by
  obtain ⟨hc, os, ho⟩ := hts
  obtain ⟨hc', os', ho'⟩ := hut
  exact ⟨hc'.trans hc, os ++ os', by rw [ho', ho, List.append_assoc]⟩

theorem step_extends {s t : State} (h : step s = .next t) : t.Extends s := by
  obtain ⟨-, rfl⟩ | ⟨r, rest, i, -, -, hexec⟩ := step_next_cases h
  · exact .refl _
  · obtain ⟨rx', os, rfl, -⟩ := exec_next_cases hexec
    exact ⟨rfl, os, rfl⟩

/-- `n + 1` steps that go on are one step that goes on and `n` more. -/
theorem runSteps_succ_eq_next {n : Nat} {s t : State} (h : runSteps (n + 1) s = .next t) :
    ∃ u, step s = .next u ∧ runSteps n u = .next t := by
  cases hs : step s with
  | next u => exact ⟨u, rfl, by simpa only [runSteps, hs, andThen] using h⟩
  | fault r => simp [runSteps, hs, andThen] at h
  | refused r => simp [runSteps, hs, andThen] at h

/-- Settles O49, by induction on the number of steps. -/
theorem parametersNeverChange : Obligations.ParametersNeverChange := by
  intro n
  induction n with
  | zero =>
    intro s t h
    cases h
    exact State.Extends.refl s
  | succ n ih =>
    intro s t h
    obtain ⟨u, hstep, hrun⟩ := runSteps_succ_eq_next h
    exact State.Extends.trans (ih u t hrun) (step_extends hstep)

end Sys2Proof.Machine
end

section
/-! PROOFS. The reassembly buffer and what feeds it: Append and Extract as accesses to a memory, chunk boundaries, the
capacity, and the operations that leave the buffer alone (R45 to R47, R51 of 20_memory.md). -/

namespace Sys2Proof.Machine

open Sys2Proof.Statements

/-! ### Chunk boundaries (R47, R105, R141) -/

/-- An operation that feeds a chunk to the receiver and outputs each event as `out` has it. -/
def FeedsChunks (op : Bytes → Instr) (out : FramerEvent → Output) : Prop :=
  ∀ (chunk : Bytes) (s : State), exec (op chunk) s =
    .next (s.receive (feedChunk s.config s.rx chunk).1 ((feedChunk s.config s.rx chunk).2.map out))

theorem feed_feedsChunks : FeedsChunks .feed .framer := exec_feed

theorem rxPoll_feedsChunks : FeedsChunks .rxPoll (fun e => .poll (pollEvent e)) := exec_rxPoll

/-- No chunk at all is the empty chunk: it changes nothing and emits nothing. -/
theorem FeedsChunks.exec_nil {op : Bytes → Instr} {out : FramerEvent → Output} (hop : FeedsChunks op out)
    (s : State) : exec (op []) s = .next s := by
  rw [hop, feedChunk_nil, List.map_nil, State.receive_self]

/-- Two chunks in a row are their concatenation. -/
theorem FeedsChunks.exec_append {op : Bytes → Instr} {out : FramerEvent → Output} (hop : FeedsChunks op out)
    (ws vs : Bytes) {s t : State} (h : exec (op ws) s = .next t) :
    exec (op (ws ++ vs)) s = exec (op vs) t := by
  rw [hop] at h
  cases h
  rw [hop, hop, feedChunk_append, State.receive_receive, List.map_append]
  rfl

/-- Running the operation on the chunks in order is running it once on all their bytes. -/
theorem FeedsChunks.runOps_map {op : Bytes → Instr} {out : FramerEvent → Output} (hop : FeedsChunks op out)
    (chunks : List Bytes) : ∀ s, runOps (chunks.map op) s = exec (op chunks.flatten) s := by
  induction chunks with
  | nil => exact fun s => (hop.exec_nil s).symm
  | cons ws chunks ih =>
    intro s
    rw [List.map_cons, List.flatten_cons, runOps_cons_of_next (hop ws s), ih]
    exact (hop.exec_append ws chunks.flatten (hop ws s)).symm

/-- Settles O10: FEED and RX_POLL both feed their chunk to the receiver, by induction on the list of chunks. -/
theorem chunkBoundariesCarryNoMeaning : Obligations.ChunkBoundariesCarryNoMeaning := fun s chunks =>
  ⟨feed_feedsChunks.runOps_map chunks s, rxPoll_feedsChunks.runOps_map chunks s⟩

/-! ### The capacity (R45, R154) -/

/-- A receiver in NORMAL mode takes the image of a byte as one Append of that byte: an escape pair counts as one. -/
theorem feedChunk_escByteImage_eq_append {c : Config} (hwf : c.wf = true) (buf : Bytes) (b : Byte) :
    feedChunk c ⟨.normal, buf⟩ (escByteImage c b) =
      ((append c ⟨.normal, buf⟩ b).1, (append c ⟨.normal, buf⟩ b).2.toList) := by
  have hmode : append c ⟨.escaped, buf⟩ b = append c ⟨.normal, buf⟩ b := rfl
  by_cases hend : b = c.endByte
  · subst hend
    rw [escByteImage_end]
    simp [feedChunk_cons, feedByte_esc hwf, rxEscStep, feedByte_escEnd hwf, rxEscEndStep, hmode]
  · by_cases hesc : b = c.escByte
    · subst hesc
      rw [escByteImage_esc hwf]
      simp [feedChunk_cons, feedByte_esc hwf, rxEscStep, feedByte_escEsc hwf, rxEscEscStep, hmode]
    · rw [escByteImage_lit (Config.isEscaped_eq_false.2 ⟨hend, hesc⟩)]
      simp [feedChunk_cons, feedByte_normal_literal buf hend hesc]

/-- Escaped bytes that do not fit: the first one too many overflows, and DROP mode ignores the rest. -/
theorem feedChunk_escapeBytes_of_overflow {c : Config} {m : Nat} (hwf : c.wf = true) (hmax : c.maxBuf = some m)
    (bs : Bytes) : ∀ buf : Bytes, buf.length ≤ m → m < buf.length + bs.length →
      feedChunk c ⟨.normal, buf⟩ (escapeBytes c bs) = (⟨.drop, []⟩, [.drop .overflow]) := by
  induction bs with
  | nil =>
    intro buf hle hlt
    exact absurd hlt (Nat.not_lt.2 hle)
  | cons b bs ih =>
    intro buf hle hlt
    rw [escapeBytes_cons, feedChunk_append]
    by_cases hfull : c.maxBuf = some buf.length
    · rw [feedChunk_escByteImage_eq_append hwf, append_of_full b hfull,
        feedChunk_drop c [] _ (end_not_mem_escapeBytes hwf bs)]
      rfl
    · have hne : m ≠ buf.length := fun h => hfull (h ▸ hmax)
      rw [feedChunk_escByteImage hwf buf b hfull,
        ih (buf ++ [b]) (by simp; omega) (by simp at hlt ⊢; omega)]
      rfl

/-- A bounded buffer fits exactly the lengths up to its bound (R8). -/
theorem Config.fits_iff_of_bounded {c : Config} {m : Nat} (hmax : c.maxBuf = some m) (n : Nat) :
    c.fits n = true ↔ n ≤ m := by
  simp [Config.fits, hmax]

/-- FEED from the reset state, by what the receiver makes of the chunk there. -/
theorem exec_feed_of_reset {s : State} {chunk : Bytes} {rx : RxState} {es : List FramerEvent}
    (hrx : s.rx = RxState.reset) (h : feedChunk s.config RxState.reset chunk = (rx, es)) :
    exec (.feed chunk) s = .next { s with rx := rx, outputs := s.outputs ++ es.map .framer } := by
  rw [exec_feed, hrx, h]
  rfl

/-- Settles O13: a sequence that fits fills the buffer, and of a longer one the first byte too many is the only event,
up to the `END` that closes the drop. -/
theorem bufferCapacityIsExact : Obligations.BufferCapacityIsExact := by
  intro s m blob hwf hmax hrx
  simp only [escaped_eq_escapeBytes]
  refine ⟨fun hle => ?_, fun hlt => ?_⟩
  · have hfits : s.config.fits blob.length = true := (Config.fits_iff_of_bounded hmax _).2 hle
    refine ⟨?_, fun hne => ?_⟩
    · rw [exec_feed_of_reset hrx (feedChunk_escapeBytes hwf blob [] (by simpa using hfits))]
      simp
    · rw [exec_feed_of_reset hrx (feedChunk_escaped_end hwf blob hne hfits), ← hrx]
      rfl
  · have hover : feedChunk s.config RxState.reset (escapeBytes s.config blob) =
        (⟨.drop, []⟩, [.drop .overflow]) :=
      feedChunk_escapeBytes_of_overflow hwf hmax blob [] (Nat.zero_le m) (by simpa using hlt)
    have hclosed : feedChunk s.config RxState.reset (escapeBytes s.config blob ++ [s.config.endByte]) =
        (RxState.reset, [.drop .overflow]) := by
      rw [feedChunk_append, hover, feedChunk_end, rxEndStep_drop]
      rfl
    refine ⟨exec_feed_of_reset hrx hover, ?_⟩
    rw [exec_feed_of_reset hrx hclosed, ← hrx]
    rfl

/-! ### The operations that leave the buffer alone (R51 (iv), R54) -/

/-- Settles O47: such an operation emits one output, which the parameters determine. -/
theorem transmitSideIgnoresReceiveState : Obligations.TransmitSideIgnoresReceiveState := by
  intro i c hport hreset
  obtain ⟨o, -, hexec⟩ := exec_emits_of_not_rxIn hport hreset c
  exact ⟨o, hexec⟩

/-! ### Append and Extract as memory accesses (R41, R45, R46) -/

/-- What Append to a buffer with room leaves in the cells is what the write at `rx_len` leaves there. -/
theorem memRead_append_of_room {c : Config} {rx : RxState} (b : Byte) (h : c.maxBuf ≠ some rx.buf.length)
    (a : Nat) : memRead (append c rx b).1 a = memRead (memPush rx b) a := by
  rw [append_of_room b h]
  rfl

/-- Settles O11, by whether the buffer has room, where the cells are those after the write. -/
theorem appendStoresAtTheLength : Obligations.AppendStoresAtTheLength := by
  intro c rx b
  refine ⟨append_of_full b, fun hroom => ?_⟩
  simp only [memRead_append_of_room b hroom]
  refine ⟨?_, ?_, ?_, memRead_memPush_self rx b, memRead_memPush_ne rx b⟩
  all_goals simp [append_of_room b hroom]

/-- Settles O12: the bytes are the buffer's own, each read at its index. -/
theorem extractReadsAllAndClears : Obligations.ExtractReadsAllAndClears := fun rx =>
  ⟨rfl, memRead_of_lt rx, rfl⟩

end Sys2Proof.Machine
end

section
/-! PROOFS. Decoding and encoding are inverse to each other, and what no decoding has is refused (R63, R64, R68 of
30_encoding.md). -/

namespace Sys2Proof.Machine

/-! ### Decode of encode -/

/-- Settles O53, from the operation's own row among the decode-after-encode laws. -/
theorem decodeOfEncodeIsTheOperation : Obligations.DecodeOfEncodeIsTheOperation := by
  intro c i
  revert c
  change Laws.DecodeEncode.Statement i
  cases i with
  | rxEnd => exact Laws.DecodeEncode.rxEnd
  | rxEsc => exact Laws.DecodeEncode.rxEsc
  | rxEscEnd => exact Laws.DecodeEncode.rxEscEnd
  | rxEscEsc => exact Laws.DecodeEncode.rxEscEsc
  | rxData w => exact Laws.DecodeEncode.rxData w
  | txbEnd => exact Laws.DecodeEncode.txbEnd
  | txbEsc => exact Laws.DecodeEncode.txbEsc
  | txbLit b => exact Laws.DecodeEncode.txbLit b
  | reset => exact Laws.DecodeEncode.reset
  | feed chunk => exact Laws.DecodeEncode.feed chunk
  | send blob => exact Laws.DecodeEncode.send blob
  | encode sapId msgId payload => exact Laws.DecodeEncode.encode sapId msgId payload
  | decode blob => exact Laws.DecodeEncode.decode blob
  | crc16 bytes => exact Laws.DecodeEncode.crc16 bytes
  | txFrame sapId msgId payload => exact Laws.DecodeEncode.txFrame sapId msgId payload
  | rxPoll chunk => exact Laws.DecodeEncode.rxPoll chunk
  | crcInit => exact Laws.DecodeEncode.crcInit
  | crcUpdate acc b => exact Laws.DecodeEncode.crcUpdate acc b
  | crcFinal acc => exact Laws.DecodeEncode.crcFinal acc
  | crcCheck blob => exact Laws.DecodeEncode.crcCheck blob

/-! ### Encode of decode -/

/-- The operation `i` is well formed, and `r` is its one request, in its format. -/
def IsEncodingOf (c : Config) (r : Request) (i : Instr) : Prop :=
  encode c i = r ∧ i.wf c = true ∧ i.format = r.format

/-- A wire byte encodes its class (R63). -/
theorem classifyRx_isEncodingOf (c : Config) (w : Byte) : IsEncodingOf c (.rxsym w) (classifyRx c w) := by
  unfold classifyRx
  split_ifs with hend hesc hescEnd hescEsc
  · exact ⟨congrArg _ hend.symm, rfl, rfl⟩
  · exact ⟨congrArg _ hesc.symm, rfl, rfl⟩
  · exact ⟨congrArg _ hescEnd.symm, rfl, rfl⟩
  · exact ⟨congrArg _ hescEsc.symm, rfl, rfl⟩
  · exact ⟨rfl, by simp [Instr.wf, Config.isSpecial_eq_false.2 ⟨hend, hesc, hescEnd, hescEsc⟩], rfl⟩

/-- A blob byte encodes its class (R64). -/
theorem classifyTx_isEncodingOf (c : Config) (b : Byte) : IsEncodingOf c (.txsym b) (classifyTx c b) := by
  unfold classifyTx
  split_ifs with hend hesc
  · exact ⟨congrArg _ hend.symm, rfl, rfl⟩
  · exact ⟨congrArg _ hesc.symm, rfl, rfl⟩
  · exact ⟨rfl, by simp [Instr.wf, Config.isEscaped_eq_false.2 ⟨hend, hesc⟩], rfl⟩

/-- A selector with its operands encodes the operation of its row (R68). -/
theorem decodeOpsel_ok_isEncodingOf {sel : BitVec 4} {args : Args} {i : Instr}
    (h : decodeOpsel sel args = .ok i) (c : Config) : IsEncodingOf c (.opsel sel args) i := by
  have hrow {n : Nat} (hsel : sel.toNat = n) : BitVec.ofNat 4 n = sel := by rw [← hsel]; simp
  unfold decodeOpsel at h
  split at h
  case h_13 => split at h <;> cases h
  all_goals
    rename_i hsel
    cases h
    exact ⟨congrArg (Request.opsel · _) (hrow hsel), rfl, rfl⟩

/-- Settles O54, by the request's format. -/
theorem encodeOfDecodeIsTheRequest : Obligations.EncodeOfDecodeIsTheRequest := by
  intro c r i h
  cases r with
  | rxsym w =>
    cases h
    exact classifyRx_isEncodingOf c w
  | txsym b =>
    cases h
    exact classifyTx_isEncodingOf c b
  | opsel sel args => exact decodeOpsel_ok_isEncodingOf h c

/-! ### The tables (R63, R68) -/

/-- A request decodes to exactly the well-formed operation it is the encoding of. -/
theorem decode_eq_ok_iff {c : Config} (hwf : c.wf = true) {r : Request} {i : Instr} :
    decode c r = .ok i ↔ encode c i = r ∧ i.wf c = true := by
  constructor
  · intro h
    obtain ⟨henc, hi, -⟩ := encodeOfDecodeIsTheRequest c r i h
    exact ⟨henc, hi⟩
  · rintro ⟨rfl, hi⟩
    exact decodeOfEncodeIsTheOperation c i hwf hi

/-- Settles O55: a class is the operation whose encoding the byte is; the default table is evaluated. -/
theorem wireByteClassesAreTheTables : Obligations.WireByteClassesAreTheTables := by
  refine ⟨fun c w hwf => ?_, rfl, rfl, rfl, rfl, by decide +kernel⟩
  simp only [decode_eq_ok_iff hwf]
  simp [encode, Instr.wf, Config.isSpecial_eq_false, eq_comm (a := w)]

/-- Settles O56: the twelve rows by evaluation, the reserved selectors by their law. -/
theorem selectorsAreTheTables : Obligations.SelectorsAreTheTables := fun _ _ _ _ _ _ =>
  ⟨rfl, rfl, rfl, rfl, rfl, rfl, rfl, rfl, rfl, rfl, rfl, rfl, fun _ args h => decodeOpsel_reserved h args⟩

/-! ### Refusals (R68, R183) -/

/-- Why a selector with its operands decodes to nothing. -/
theorem decodeOpsel_error_cases {sel : BitVec 4} {args : Args} {e : DecodeError}
    (h : decodeOpsel sel args = .error e) :
    (e = .reservedSelector sel ∧ 12 ≤ sel.toNat) ∨ (e = .operandShape sel args ∧ sel.toNat < 12) := by
  by_cases hsel : 12 ≤ sel.toNat
  · rw [decodeOpsel_reserved hsel] at h
    cases h
    exact .inl ⟨rfl, hsel⟩
  · unfold decodeOpsel at h
    split at h
    case h_13 =>
      rw [if_neg hsel] at h
      cases h
      exact .inr ⟨rfl, Nat.lt_of_not_le hsel⟩
    all_goals cases h

/-- The symbols of the two byte formats all decode: what does not decode is a selector with its operands. -/
theorem decode_error_cases {c : Config} {r : Request} {e : DecodeError} (h : decode c r = .error e) :
    ∃ sel args, r = .opsel sel args ∧ decodeOpsel sel args = .error e := by
  cases r with
  | rxsym w => cases h
  | txsym b => cases h
  | opsel sel args => exact ⟨sel, args, rfl, h⟩

theorem step_of_decode_error {s : State} {r : Request} {rest : List Request} {e : DecodeError}
    (hin : s.inbox = r :: rest) (h : decode s.config r = .error e) :
    step s = .refused (.undecodable e) := by
  simp [step, State.fetch, hin, h]

theorem step_of_decode_ok {s : State} {r : Request} {rest : List Request} {i : Instr}
    (hin : s.inbox = r :: rest) (h : decode s.config r = .ok i) :
    step s = exec i { s with inbox := rest } := by
  simp [step, State.fetch, hin, h]

/-- An operation is never refused: it has an effect. -/
theorem exec_ne_refused (i : Instr) (s : State) (e : Refusal) : exec i s ≠ .refused e := by
  obtain ⟨rx', os, hexec, -⟩ := exec_hasEffect i s.config s.rx
  simp [hexec s rfl rfl]

/-- Settles O52: a refused step took a request that does not decode, since an operation runs. -/
theorem onlyUndecodableRequestsAreRefused : Obligations.OnlyUndecodableRequestsAreRefused := by
  intro s r rest hin
  refine ⟨fun e h => step_of_decode_error hin h, fun e h => ?_⟩
  cases hd : decode s.config r with
  | ok i => exact absurd (step_of_decode_ok hin hd ▸ h) (exec_ne_refused i _ e)
  | error d =>
    obtain ⟨sel, args, rfl, hsel⟩ := decode_error_cases hd
    rw [step_of_decode_error hin hd] at h
    cases h
    refine ⟨sel, args, rfl, (decodeOpsel_error_cases hsel).imp ?_ ?_⟩
    · exact fun ⟨he, hle⟩ => ⟨congrArg _ he, hle⟩
    · exact fun ⟨he, hlt⟩ => ⟨congrArg _ he, hlt⟩

end Sys2Proof.Machine
end

section
/-! PROOFS. Escaped blobs are uniquely decodable, and packets, in a row or in chunks, are received as the blobs and
frames they were made of (R64, R69, R72 of 30_encoding.md). -/

namespace Sys2Proof.Machine

open Sys2Proof.Statements

/-! ### The escape map (R64) -/

theorem State.emit_inj {s : State} {o o' : Output} : s.emit o = s.emit o' ↔ o = o' := by
  simp [State.emit]

/-- An operation that emits `o` emits nothing else. -/
theorem eq_of_exec_emit {i : Instr} {s : State} {o o' : Output} (h : exec i s = .next (s.emit o))
    (h' : exec i s = .next (s.emit o')) : o' = o := by
  rw [h] at h'
  exact (State.emit_inj.1 (Host.Outcome.next.inj h')).symm

theorem escaped_singleton (c : Config) (b : Byte) : escaped c [b] = escByteImage c b := by
  simp [escaped_eq_escapeBytes, escapeBytes_cons]

/-- The same framing bytes, with an infinite `MAX_BUF` (R8). -/
def unboundedConfig (c : Config) : Config := { c with maxBuf := none }

/-- A receiver without a bound, in the reset state, reads escaped bytes back. -/
theorem feedChunk_unbounded_escaped {c : Config} (hwf : c.wf = true) (bs : Bytes) :
    feedChunk (unboundedConfig c) ⟨.normal, []⟩ (escaped c bs) = (⟨.normal, bs⟩, []) := by
  have hsame : escaped c bs = escapeBytes (unboundedConfig c) bs := escaped_eq_escapeBytes (unboundedConfig c) bs
  rw [hsame]
  exact feedChunk_escapeBytes (c := unboundedConfig c) hwf bs [] (Config.fits_of_unbounded rfl _)

/-- Escaped bytes say which bytes they are: the receiver without a bound gives the same bytes for both (R64). -/
theorem escaped_inj {c : Config} (hwf : c.wf = true) {bs bs' : Bytes} (h : escaped c bs = escaped c bs') :
    bs = bs' := by
  have hread := feedChunk_unbounded_escaped hwf bs
  rw [h, feedChunk_unbounded_escaped hwf bs'] at hread
  simpa using hread.symm

/-- SEND's packet in the statements' own escape map. -/
theorem wirePacket_eq_escaped (c : Config) (blob : Bytes) :
    wirePacket c blob = [c.endByte] ++ escaped c blob ++ [c.endByte] := by
  rw [escaped_eq_escapeBytes]
  rfl

theorem wirePacket_inj {c : Config} (hwf : c.wf = true) {B B' : Bytes} (h : wirePacket c B = wirePacket c B') :
    B = B' := by
  simp only [wirePacket_eq_escaped, List.append_cancel_right_eq, List.append_cancel_left_eq] at h
  exact escaped_inj hwf h

/-- Settles O26: the class by evaluation, unique decodability from the receiver that reads escaped bytes back. -/
theorem escapingIsUniquelyDecodable : Obligations.EscapingIsUniquelyDecodable := by
  intro s hwf
  refine ⟨fun b => rfl, fun b i hdec => ?_, fun b => ?_, fun b b' h => ?_, fun B B' t h h' => ?_⟩
  · cases hdec
    rw [exec_classifyTx, escaped_singleton]
    rfl
  · rw [escaped_singleton]
    exact end_not_mem_escByteImage hwf b
  · exact List.singleton_injective (escaped_inj hwf h)
  · rw [exec_send] at h
    cases h
    have hwire := eq_of_exec_emit (exec_send B' s) h'
    exact wirePacket_inj hwf (Output.wire.inj hwire)

/-! ### Packets in a row (R69 (e), R51 (ii), R173) -/

/-- A packet of a blob that fits, from the reset state: exactly the blob. -/
theorem feedChunk_reset_wirePacket {c : Config} (hwf : c.wf = true) {blob : Bytes} (hne : blob ≠ [])
    (hfits : c.fits blob.length = true) :
    feedChunk c RxState.reset (wirePacket c blob) = (RxState.reset, [.blob blob]) :=
  feedChunk_wirePacket hwf RxState.reset blob hne hfits

/-- Where the wire bytes of each blob alone are received as that blob, those of all in a row are received as all. -/
theorem feedChunk_reset_flatMap {c : Config} {wire : Bytes → Bytes} (Bs : List Bytes)
    (h : ∀ B ∈ Bs, feedChunk c RxState.reset (wire B) = (RxState.reset, [.blob B])) :
    feedChunk c RxState.reset (Bs.flatMap wire) = (RxState.reset, Bs.map .blob) := by
  induction Bs with
  | nil => rfl
  | cons B Bs ih =>
    obtain ⟨hB, hBs⟩ := List.forall_mem_cons.1 h
    rw [List.flatMap_cons, feedChunk_append, hB, ih hBs]
    rfl

/-- An operation that feeds, between two reset states: it outputs the events and changes nothing else. -/
theorem FeedsChunks.exec_of_reset {op : Bytes → Instr} {out : FramerEvent → Output} (hop : FeedsChunks op out)
    {s : State} (hrx : s.rx = RxState.reset) {chunk : Bytes} {es : List FramerEvent}
    (h : feedChunk s.config RxState.reset chunk = (RxState.reset, es)) :
    exec (op chunk) s = .next { s with outputs := s.outputs ++ es.map out } := by
  rw [hop, hrx, h, ← hrx]
  rfl

/-- FEED of wire bytes that deliver one blob after the other: exactly the blobs, in order. -/
theorem exec_feed_flatMap {s : State} (hrx : s.rx = RxState.reset) {wire : Bytes → Bytes} {Bs : List Bytes}
    (h : ∀ B ∈ Bs, feedChunk s.config RxState.reset (wire B) = (RxState.reset, [.blob B])) :
    exec (.feed (Bs.flatMap wire)) s =
      .next { s with outputs := s.outputs ++ Bs.map (fun B => .framer (.blob B)) } := by
  rw [feed_feedsChunks.exec_of_reset hrx (feedChunk_reset_flatMap Bs h), List.map_map]
  rfl

/-- Settles O29: in both delimiter forms one blob's wire bytes lead from the reset state back to it and deliver that
blob. -/
theorem streamsDeliverEveryBlobInOrder : Obligations.StreamsDeliverEveryBlobInOrder := by
  intro s Bs hwf hrx hBs
  refine ⟨exec_feed_flatMap hrx fun B hB => ?_, exec_feed_flatMap hrx fun B hB => ?_⟩ <;>
    obtain ⟨hlen, hfits⟩ := hBs B hB
  · rw [← wirePacket_eq_escaped]
    exact feedChunk_reset_wirePacket hwf (List.ne_nil_of_length_pos hlen) hfits
  · rw [escaped_eq_escapeBytes]
    exact feedChunk_escaped_end hwf B (List.ne_nil_of_length_pos hlen) hfits

/-! ### The round trip of the pipeline (R72) -/

/-- A packet of a blob that fits, cut into chunks in any way and fed from the reset state: exactly the blob's event. -/
theorem FeedsChunks.runOps_wirePacket {op : Bytes → Instr} {out : FramerEvent → Output} (hop : FeedsChunks op out)
    {s : State} (hwf : s.config.wf = true) (hrx : s.rx = RxState.reset) {blob : Bytes} (hne : blob ≠ [])
    (hfits : s.config.fits blob.length = true) {chunks : List Bytes}
    (hchunks : chunks.flatten = wirePacket s.config blob) :
    runOps (chunks.map op) s = .next { s with outputs := s.outputs ++ [out (.blob blob)] } := by
  rw [hop.runOps_map, hchunks]
  exact hop.exec_of_reset hrx (feedChunk_reset_wirePacket hwf hne hfits)

/-- DECODE of what ENCODE makes is the Frame encoded (R122). -/
theorem decodeBlob_encodeBlob (sapId msgId : Byte) (payload : Bytes) :
    decodeBlob (encodeBlob sapId msgId payload) =
      .frame ⟨sapId, msgId, payload, crc16 ([sapId, msgId] ++ payload)⟩ := by
  rw [encodeBlob_eq, decodeBlob_fields, assembleTrailer_lo_hi, if_pos rfl]

/-- Settles O44: FEED and RX_POLL both feed the packet's chunks, and the blob of TX_FRAME decodes to its Frame. -/
theorem pipelineRoundTrip : Obligations.PipelineRoundTrip := by
  intro s hwf hrx
  refine ⟨fun B chunks hne hfits hchunks => ?_, fun sapId msgId payload W code chunks hfits hW hcode hchunks => ?_⟩
  · rw [← wirePacket_eq_escaped] at hchunks
    exact feed_feedsChunks.runOps_wirePacket hwf hrx (List.ne_nil_of_length_pos hne) hfits hchunks
  · obtain rfl : W = wirePacket s.config (encodeBlob sapId msgId payload) :=
      Output.wire.inj (eq_of_exec_emit (exec_txFrame sapId msgId payload s) hW)
    obtain rfl : code = crc16 ([sapId, msgId] ++ payload) :=
      Output.code.inj (eq_of_exec_emit (exec_crc16 _ s) hcode)
    have hpoll := rxPoll_feedsChunks.runOps_wirePacket hwf hrx (encodeBlob_ne_nil sapId msgId payload)
      (by simpa using hfits) hchunks
    rw [hpoll, pollEvent, decodeBlob_encodeBlob]

end Sys2Proof.Machine
end

section
/-! PROOFS. The receive framer's transition table byte by byte, and what it makes of the wire bytes of one frame
(R106, R107 of 40_framer_receive.md, R67 of 30_encoding.md). -/

namespace Sys2Proof.Machine

open Sys2Proof.Statements

/-! ### Rows of the transition table (R106) -/

section rows
variable {c : Config} {rx : RxState} {w : Byte}

theorem rxEndStep_of_empty (hm : rx.mode = .normal) (hbuf : rx.buf = []) :
    rxEndStep rx = (RxState.reset, none) := by
  simp [rxEndStep, hm, hbuf, RxState.reset]

theorem rxEndStep_of_nonempty (hm : rx.mode = .normal) (hbuf : rx.buf ≠ []) :
    rxEndStep rx = (RxState.reset, some (.blob rx.buf)) := by
  obtain ⟨m, buf⟩ := rx
  cases hm
  exact rxEndStep_normal buf hbuf

theorem rxEndStep_of_escaped (hm : rx.mode = .escaped) :
    rxEndStep rx = (RxState.reset, some (.drop .badEscape)) := by
  simp [rxEndStep, hm, raiseDrop, RxState.reset]

theorem rxEndStep_of_drop (hm : rx.mode = .drop) : rxEndStep rx = (RxState.reset, none) := by
  simp [rxEndStep, hm, RxState.reset]

/-- A byte that is neither `END` nor `ESC` is appended in NORMAL mode (R104; R73 for the substitute codes). -/
theorem feedByte_literal_of_normal (hm : rx.mode = .normal) (hend : w ≠ c.endByte) (hesc : w ≠ c.escByte) :
    feedByte c rx w = append c rx w := by
  obtain ⟨m, buf⟩ := rx
  cases hm
  exact feedByte_normal_literal buf hend hesc

theorem feedByte_escEnd_of_escaped (hwf : c.wf = true) (hm : rx.mode = .escaped) :
    feedByte c rx c.escEndByte = append c rx c.endByte := by
  simp [feedByte_escEnd hwf, rxEscEndStep, hm]

theorem feedByte_escEsc_of_escaped (hwf : c.wf = true) (hm : rx.mode = .escaped) :
    feedByte c rx c.escEscByte = append c rx c.escByte := by
  simp [feedByte_escEsc hwf, rxEscEscStep, hm]

/-- A byte that is neither `END` nor a substitute code is a bad escape after `ESC` (R101, R104). -/
theorem feedByte_bad_of_escaped (hm : rx.mode = .escaped) (hend : w ≠ c.endByte) (hescEnd : w ≠ c.escEndByte)
    (hescEsc : w ≠ c.escEscByte) : feedByte c rx w = raiseDrop .drop .badEscape := by
  simp [feedByte, hend, hescEnd, hescEsc, rxEscStep, rxDataStep, hm]

theorem feedByte_of_drop (hm : rx.mode = .drop) (hend : w ≠ c.endByte) : feedByte c rx w = (rx, none) := by
  obtain ⟨m, buf⟩ := rx
  cases hm
  exact feedByte_drop buf hend

end rows

/-! ### The content of one frame (R67, R107 (iv)) -/

/-- Wire bytes without `END` are none, or begin with the image of one data byte, or with an `ESC` that no substitute
code follows. -/
theorem content_induction {c : Config} (hwf : c.wf = true) {motive : Bytes → Prop} (nil : motive [])
    (image : ∀ b rest, c.endByte ∉ rest → motive rest → motive (escByteImage c b ++ rest))
    (unfinished : motive [c.escByte])
    (bad : ∀ v rest, c.endByte ∉ v :: rest → v ≠ c.escEndByte → v ≠ c.escEscByte → motive (c.escByte :: v :: rest))
    (content : Bytes) (hend : c.endByte ∉ content) : motive content := by
  have literal {w : Byte} {rest : Bytes} (hesc : w ≠ c.escByte) (hnot : c.endByte ∉ w :: rest)
      (ih : motive rest) : motive (w :: rest) := by
    obtain ⟨hw, hrest⟩ := List.ne_and_not_mem_of_not_mem_cons hnot
    simpa [escByteImage_lit (Config.isEscaped_eq_false.2 ⟨Ne.symm hw, hesc⟩)] using image w rest hrest ih
  induction content using unescape.induct c with
  | case1 => exact nil
  | case2 => exact unfinished
  | case3 w hesc => exact literal hesc hend nil
  | case4 rest ih =>
    have hrest := List.not_mem_of_not_mem_cons (List.not_mem_of_not_mem_cons hend)
    simpa [escByteImage_end] using image c.endByte rest hrest (ih hrest)
  | case5 rest _ ih =>
    have hrest := List.not_mem_of_not_mem_cons (List.not_mem_of_not_mem_cons hend)
    simpa [escByteImage_esc hwf] using image c.escByte rest hrest (ih hrest)
  | case6 v rest hescEnd hescEsc => exact bad v rest (List.not_mem_of_not_mem_cons hend) hescEnd hescEsc
  | case7 w v rest hesc ih => exact literal hesc hend (ih (List.not_mem_of_not_mem_cons hend))

/-- Unescaping reads the image of a data byte back as that byte (R67). -/
theorem unescape_escByteImage_append {c : Config} (hwf : c.wf = true) (b : Byte) (rest : Bytes) :
    unescape c (escByteImage c b ++ rest) = (unescape c rest).map (b :: ·) := by
  have hcodes : c.escEscByte ≠ c.escEndByte := by rintro e; simp [Config.wf, e] at hwf
  by_cases hend : b = c.endByte
  · subst hend
    simp [escByteImage_end, unescape]
  · by_cases hesc : b = c.escByte
    · subst hesc
      simp [escByteImage_esc hwf, unescape, hcodes]
    · rw [escByteImage_lit (Config.isEscaped_eq_false.2 ⟨hend, hesc⟩)]
      cases rest <;> simp [unescape, hesc]

/-- What a frame of data bytes `data` may give, `none` standing for a bad escape: at most one event, and a blob exactly
when there are 1 to `MAX_BUF` data bytes. -/
def Delivers (c : Config) (data : Option Bytes) (es : List FramerEvent) : Prop :=
  es.length ≤ 1 ∧ ∀ b, FramerEvent.blob b ∈ es ↔ data = some b ∧ 1 ≤ b.length ∧ c.fits b.length = true

/-- A frame without deliverable data may be discarded. -/
theorem delivers_drop {c : Config} {data : Option Bytes} (h : ∀ b, data = some b → c.fits b.length ≠ true)
    (r : DropReason) : Delivers c data [.drop r] := by
  refine ⟨le_rfl, fun b => ⟨fun hb => by simp at hb, ?_⟩⟩
  rintro ⟨hdata, -, hfits⟩
  exact absurd hfits (h b hdata)

/-- A bad escape is a discard. -/
theorem delivers_none (c : Config) (r : DropReason) : Delivers c none [.drop r] :=
  delivers_drop (fun _ h => by cases h) r

/-- Data bytes that fit are delivered, unless there are none. -/
theorem feedChunk_end_delivers {c : Config} {buf : Bytes} (hfits : c.fits buf.length = true) :
    Delivers c (some buf) (feedChunk c ⟨.normal, buf⟩ [c.endByte]).2 := by
  rw [feedChunk_end]
  by_cases hbuf : buf = []
  · rw [rxEndStep_of_empty rfl hbuf]
    refine ⟨Nat.zero_le 1, fun b => ⟨fun hb => by simp at hb, ?_⟩⟩
    rintro ⟨hb, hlen, -⟩
    simp [← Option.some.inj hb, hbuf] at hlen
  · rw [rxEndStep_of_nonempty rfl hbuf]
    refine ⟨le_rfl, fun b => ⟨fun hb => ?_, ?_⟩⟩
    · obtain rfl : b = buf := by simpa using hb
      exact ⟨rfl, List.length_pos_iff.2 hbuf, hfits⟩
    · rintro ⟨hb, -⟩
      simp [Option.some.inj hb]

/-- Beyond a full buffer nothing fits. -/
theorem Config.not_fits_of_full {c : Config} {m n : Nat} (hfull : c.maxBuf = some m) (hlt : m < n) :
    c.fits n ≠ true := by
  rw [Ne, Config.fits_iff_of_bounded hfull]
  omega

/-- While dropping, the rest of the frame and its `END` raise nothing. -/
theorem feedChunk_drop_end {c : Config} {ws : Bytes} (hend : c.endByte ∉ ws) (buf : Bytes) :
    feedChunk c ⟨.drop, buf⟩ (ws ++ [c.endByte]) = (RxState.reset, []) := by
  rw [feedChunk_append, feedChunk_drop c buf ws hend, feedChunk_end, rxEndStep_drop]
  rfl

/-- From NORMAL mode, behind the buffered bytes, the content and its `END` deliver the buffered bytes followed by the
unescaped content. -/
def DeliversContent (c : Config) (content : Bytes) : Prop :=
  ∀ buf : Bytes, c.fits buf.length = true →
    Delivers c ((unescape c content).map (buf ++ ·)) (feedChunk c ⟨.normal, buf⟩ (content ++ [c.endByte])).2

/-- The image of one data byte is one Append: it leaves the rest to a longer buffer, or nothing that begins with the
buffered bytes and this one fits. -/
theorem deliversContent_escByteImage_append {c : Config} (hwf : c.wf = true) (b : Byte) {rest : Bytes}
    (hend : c.endByte ∉ rest) (ih : DeliversContent c rest) : DeliversContent c (escByteImage c b ++ rest) := by
  intro buf hfits
  rw [unescape_escByteImage_append hwf, List.append_assoc, feedChunk_append]
  by_cases hfull : c.maxBuf = some buf.length
  · rw [feedChunk_escByteImage_eq_append hwf, append_of_full b hfull, feedChunk_drop_end hend]
    refine delivers_drop (fun bs hbs => Config.not_fits_of_full hfull ?_) .overflow
    obtain ⟨data, -, rfl⟩ : ∃ data, unescape c rest = some data ∧ buf ++ b :: data = bs := by simpa using hbs
    simp
  · have hfits' : c.fits (buf ++ [b]).length = true := by simpa using Config.fits_succ hfits hfull
    rw [feedChunk_escByteImage hwf buf b hfull]
    simpa [Function.comp_def] using ih (buf ++ [b]) hfits'

/-- An `ESC` that no substitute code follows makes the content bad, and the frame is discarded. -/
theorem deliversContent_bad {c : Config} (hwf : c.wf = true) {v : Byte} {rest : Bytes} (hend : c.endByte ∉ v :: rest)
    (hescEnd : v ≠ c.escEndByte) (hescEsc : v ≠ c.escEscByte) : DeliversContent c (c.escByte :: v :: rest) := by
  intro buf _
  obtain ⟨hv, hrest⟩ := List.ne_and_not_mem_of_not_mem_cons hend
  have hnone : unescape c (c.escByte :: v :: rest) = none := by simp [unescape, hescEnd, hescEsc]
  rw [hnone, List.cons_append, List.cons_append, feedChunk_cons, feedByte_esc_of_normal hwf rfl, feedChunk_cons,
    feedByte_bad_of_escaped rfl (Ne.symm hv) hescEnd hescEsc, raiseDrop_state, feedChunk_drop_end hrest]
  exact delivers_none c .badEscape

/-- A content that ends inside an escape is bad, and its `END` discards the frame (R100). -/
theorem deliversContent_unfinished {c : Config} (hwf : c.wf = true) : DeliversContent c [c.escByte] := by
  intro buf _
  have hnone : unescape c [c.escByte] = none := by simp [unescape]
  rw [hnone, feedChunk_append, feedChunk_end, feedChunk_cons, feedByte_esc_of_normal hwf rfl]
  exact delivers_none c .badEscape

/-- Every content without `END` delivers what it unescapes to, by induction on its data bytes. -/
theorem deliversContent {c : Config} (hwf : c.wf = true) (content : Bytes) (hend : c.endByte ∉ content) :
    DeliversContent c content :=
  content_induction hwf
    (nil := fun buf hfits => by simpa [unescape] using feedChunk_end_delivers hfits)
    (image := fun b _ hrest ih => deliversContent_escByteImage_append hwf b hrest ih)
    (unfinished := deliversContent_unfinished hwf)
    (bad := fun _ _ hrest hescEnd hescEsc => deliversContent_bad hwf hrest hescEnd hescEsc)
    content hend

/-- Settles O17: from the empty buffer the content and its `END` deliver exactly the unescaped content. -/
theorem blobsAreTheUnescapedContent : Obligations.BlobsAreTheUnescapedContent := by
  intro s content hwf hrx hend
  obtain ⟨hlen, hblob⟩ := deliversContent hwf content hend [] (RxState.reset_ok s.config).1
  have hreset := feedChunk_append_end_rx s.config RxState.reset content
  exact ⟨_, hlen, exec_feed_of_reset hrx (Prod.ext hreset rfl), by simpa using hblob⟩

end Sys2Proof.Machine
end

section
/-! PROOFS. The receive framer's byte operations, mode by mode, and FEED as their fold (R100 to R106 of
40_framer_receive.md, R62 of 30_encoding.md, R159 of 60_exceptions.md). -/

namespace Sys2Proof.Machine

/-! ### A byte operation's effect on the machine -/

theorem exec_rxEnd (s : State) : exec .rxEnd s = .next (s.receiveByte (rxEndStep s.rx)) := rfl

theorem exec_rxEsc (s : State) : exec .rxEsc s = .next (s.receiveByte (rxEscStep s.rx)) := rfl

theorem exec_rxEscEnd (s : State) : exec .rxEscEnd s = .next (s.receiveByte (rxEscEndStep s.config s.rx)) := rfl

theorem exec_rxEscEsc (s : State) : exec .rxEscEsc s = .next (s.receiveByte (rxEscEscStep s.config s.rx)) := rfl

theorem exec_rxData (w : Byte) (s : State) :
    exec (.rxData w) s = .next (s.receiveByte (rxDataStep s.config s.rx w)) := rfl

theorem State.receiveByte_none (s : State) (rx : RxState) : s.receiveByte (rx, none) = { s with rx := rx } := by
  simp [State.receiveByte, State.receive]

theorem State.receiveByte_some (s : State) (rx : RxState) (e : FramerEvent) :
    s.receiveByte (rx, some e) = { s with rx := rx, outputs := s.outputs ++ [.framer e] } := rfl

/-- Append on the machine, to a buffer with room (R45). -/
theorem State.receiveByte_append_of_room {s : State} (b : Byte) (hroom : s.config.maxBuf ≠ some s.rx.buf.length) :
    s.receiveByte (append s.config s.rx b) = { s with rx := ⟨.normal, s.rx.buf ++ [b]⟩ } := by
  rw [append_of_room b hroom, State.receiveByte_none]

/-- Append on the machine, to a full buffer (R45, R154). -/
theorem State.receiveByte_append_of_full {s : State} (b : Byte) (hfull : s.config.maxBuf = some s.rx.buf.length) :
    s.receiveByte (append s.config s.rx b) =
      { s with rx := ⟨.drop, []⟩, outputs := s.outputs ++ [.framer (.drop .overflow)] } := by
  rw [append_of_full b hfull, State.receiveByte_some]

/-! ### The transition table (R106) -/

/-- Settles O8: the operation of a wire byte is FEED's step on it, and each row is that step's. -/
theorem receiveTransitionTable : Obligations.ReceiveTransitionTable := by
  intro s w hwf
  refine ⟨_, _, decode_rxsym s.config w, exec_classifyRx s w, ?_, ?_, ?_, ?_, ?_, ?_, ?_, ?_, ?_, ?_, ?_, ?_⟩
  · rintro hm rfl hlen
    rw [feedByte_end, rxEndStep_of_empty hm (List.length_eq_zero_iff.1 hlen), State.receiveByte_none]
    rfl
  · rintro hm rfl hlen
    rw [feedByte_end, rxEndStep_of_nonempty hm (List.length_pos_iff.1 hlen)]
    rfl
  · rintro hm rfl
    rw [feedByte_esc_of_normal hwf hm, State.receiveByte_none]
  · intro hm hend hesc hroom
    rw [feedByte_literal_of_normal hm hend hesc, State.receiveByte_append_of_room w hroom]
  · intro hm hend hesc hfull
    rw [feedByte_literal_of_normal hm hend hesc, State.receiveByte_append_of_full w hfull]
  · rintro hm rfl hroom
    rw [feedByte_escEnd_of_escaped hwf hm, State.receiveByte_append_of_room _ hroom]
  · rintro hm rfl hroom
    rw [feedByte_escEsc_of_escaped hwf hm, State.receiveByte_append_of_room _ hroom]
  · rintro hm (rfl | rfl) hfull
    · rw [feedByte_escEnd_of_escaped hwf hm, State.receiveByte_append_of_full _ hfull]
    · rw [feedByte_escEsc_of_escaped hwf hm, State.receiveByte_append_of_full _ hfull]
  · rintro hm rfl
    rw [feedByte_end, rxEndStep_of_escaped hm]
    rfl
  · intro hm hend hescEnd hescEsc
    rw [feedByte_bad_of_escaped hm hend hescEnd hescEsc]
    rfl
  · rintro hm rfl
    rw [feedByte_end, rxEndStep_of_drop hm, State.receiveByte_none]
    rfl
  · intro hm hend
    rw [feedByte_of_drop hm hend, State.receiveByte_none]
    exact ⟨rfl, fun hempty => hempty hm⟩

/-! ### FEED (R105, R159) -/

/-- FEED's first byte is its class's operation, and the rest is fed to the state that one left. -/
theorem exec_feed_cons (s : State) (w : Byte) (ws : Bytes) :
    exec (.feed (w :: ws)) s = exec (.feed ws) (s.receiveByte (feedByte s.config s.rx w)) := by
  have hfirst : exec (.feed [w]) s = .next (s.receiveByte (feedByte s.config s.rx w)) := by
    simp [exec_feed, feedChunk_cons, State.receiveByte]
  exact feed_feedsChunks.exec_append [w] ws hfirst

/-- The blobs of an event sequence are what a map that keeps the blobs and leaves the discards out picks (R35). -/
theorem blobsOf_eq_filterMap {f : FramerEvent → Option Bytes} (hblob : ∀ b, f (.blob b) = some b)
    (hdrop : ∀ r, f (.drop r) = none) (es : List FramerEvent) : blobsOf es = es.filterMap f := by
  induction es with
  | nil => rfl
  | cons e es ih =>
    cases e with
    | blob b => simp [blobsOf, hblob, ih]
    | drop r => simp [blobsOf, hdrop, ih]

/-- Settles O9, from the fold on a first byte and on a first chunk. -/
theorem feedRunsItsBytesInOrder : Obligations.FeedRunsItsBytesInOrder := fun s =>
  ⟨fun _ => rfl, feed_feedsChunks.exec_nil s,
    fun w ws => ⟨_, _, decode_rxsym s.config w, exec_classifyRx s w, exec_feed_cons s w ws⟩,
    fun c₁ c₂ => ⟨_, exec_feed c₁ s, feed_feedsChunks.exec_append c₁ c₂ (exec_feed c₁ s)⟩,
    blobsOf_eq_filterMap (fun _ => rfl) fun _ => rfl⟩

/-- A chunk that the receiver ignores changes nothing and outputs nothing. -/
theorem FeedsChunks.exec_of_ignored {op : Bytes → Instr} {out : FramerEvent → Output} (hop : FeedsChunks op out)
    {s : State} {chunk : Bytes} (h : feedChunk s.config s.rx chunk = (s.rx, [])) : exec (op chunk) s = .next s := by
  rw [hop, h, List.map_nil, State.receive_self]

/-- Settles O15: FEED and RX_POLL both feed the chunk, which a dropping receiver ignores. -/
theorem dropModeIgnoresAllButEnd : Obligations.DropModeIgnoresAllButEnd := by
  intro s chunk hm hend
  have hrx : s.rx = ⟨.drop, s.rx.buf⟩ := by rw [← hm]
  have hignored : feedChunk s.config s.rx chunk = (s.rx, []) := by
    rw [hrx]
    exact feedChunk_drop s.config s.rx.buf chunk hend
  exact ⟨feed_feedsChunks.exec_of_ignored hignored, rxPoll_feedsChunks.exec_of_ignored hignored⟩

/-! ### Which byte emits a blob (R62, R100) -/

/-- `END` emits a blob only in NORMAL mode, and it is the buffer, which is not empty. -/
theorem rxEndStep_blob_iff (rx : RxState) (b : Bytes) :
    (rxEndStep rx).2 = some (.blob b) ↔ rx.mode = .normal ∧ b = rx.buf ∧ b ≠ [] := by
  cases hm : rx.mode with
  | normal =>
    by_cases hbuf : rx.buf = []
    · simp [rxEndStep_of_empty hm hbuf, hbuf]
    · rw [rxEndStep_of_nonempty hm hbuf]
      refine ⟨fun h => ?_, fun ⟨_, hb, _⟩ => by rw [hb]⟩
      obtain rfl : rx.buf = b := by simpa using h
      exact ⟨rfl, rfl, hbuf⟩
  | escaped => simp [rxEndStep_of_escaped hm]
  | drop => simp [rxEndStep_of_drop hm]

theorem append_ne_blob (c : Config) (rx : RxState) (x : Byte) (b : Bytes) : (append c rx x).2 ≠ some (.blob b) := by
  by_cases hfull : c.maxBuf = some rx.buf.length
  · simp [append_of_full x hfull]
  · simp [append_of_room x hfull]

/-- A wire byte that emits a blob is `END`. -/
theorem feedByte_blob {c : Config} {rx : RxState} {w : Byte} {b : Bytes} (h : (feedByte c rx w).2 = some (.blob b)) :
    w = c.endByte ∧ rx.mode = .normal ∧ b = rx.buf := by
  rcases feedByte_cases c rx w with ⟨hend, hw⟩ | ⟨-, -, -, hw⟩ | ⟨-, -, hw⟩ | ⟨-, -, x, hw⟩ | ⟨-, -, hw⟩ <;>
    rw [hw] at h
  · obtain ⟨hm, hb, -⟩ := (rxEndStep_blob_iff rx b).1 h
    exact ⟨hend, hm, hb⟩
  · cases h
  · cases h
  · exact absurd h (append_ne_blob c rx x b)
  · cases h

/-- A chunk that emits a blob holds an `END`. -/
theorem end_mem_of_feedChunk_blob {c : Config} {b : Bytes} (ws : Bytes) :
    ∀ {rx : RxState}, FramerEvent.blob b ∈ (feedChunk c rx ws).2 → c.endByte ∈ ws := by
  induction ws with
  | nil => intro rx h; simp at h
  | cons w ws ih =>
    intro rx h
    rw [feedChunk_cons] at h
    rcases List.mem_append.1 h with hfirst | hrest
    · simp [(feedByte_blob (Option.mem_toList.1 hfirst)).1]
    · exact List.mem_cons_of_mem w (ih hrest)

/-- An event among the outputs after a byte operation was there before it, or the byte raised it. -/
theorem State.mem_receiveByte_outputs {s : State} {r : ByteResult} {e : FramerEvent}
    (h : Output.framer e ∈ (s.receiveByte r).outputs) : Output.framer e ∈ s.outputs ∨ r.2 = some e := by
  simpa [eq_comm] using h

/-- Settles O18: a blob that is new comes from the byte or the chunk, hence from an `END`. -/
theorem onlyEndEmitsABlob : Obligations.OnlyEndEmitsABlob := by
  intro s t b hmem hnew
  refine ⟨fun w i hdec hexec => ?_, fun chunk hexec => ?_⟩
  · rw [exec_of_decode_rxsym hdec hexec] at hmem
    exact feedByte_blob ((State.mem_receiveByte_outputs hmem).resolve_left hnew)
  · rw [exec_feed] at hexec
    cases hexec
    have hevents : Output.framer (.blob b) ∈ (feedChunk s.config s.rx chunk).2.map .framer :=
      (List.mem_append.1 hmem).resolve_left hnew
    exact end_mem_of_feedChunk_blob chunk (by simpa using hevents)

end Sys2Proof.Machine
end

section
/-! PROOFS. Each byte operation of the receive framer in every mode (R100 to R104 of 40_framer_receive.md). -/

namespace Sys2Proof.Machine

/-! ### RX.END (R100) -/

/-- The other byte operations raise no blob: what they raise is Append's Overflow or a BadEscape. -/
theorem exec_byte_raises_no_blob {i : Instr} (hi : i = .rxEsc ∨ i = .rxEscEnd ∨ i = .rxEscEsc ∨ ∃ w, i = .rxData w)
    (s : State) : ∃ r : ByteResult, exec i s = .next (s.receiveByte r) ∧ ∀ b, r.2 ≠ some (.blob b) := by
  rcases hi with rfl | rfl | rfl | ⟨w, rfl⟩
  · refine ⟨_, exec_rxEsc s, fun b => ?_⟩
    cases hm : s.rx.mode <;> simp [rxEscStep, hm]
  · refine ⟨_, exec_rxEscEnd s, fun b => ?_⟩
    cases hm : s.rx.mode <;> simp [rxEscEndStep, hm, append_ne_blob]
  · refine ⟨_, exec_rxEscEsc s, fun b => ?_⟩
    cases hm : s.rx.mode <;> simp [rxEscEscStep, hm, append_ne_blob]
  · refine ⟨_, exec_rxData w s, fun b => ?_⟩
    cases hm : s.rx.mode <;> simp [rxDataStep, hm, append_ne_blob]

/-- A byte operation's outputs end in an event exactly when the byte raised it. -/
theorem State.receiveByte_outputs_eq_append (s : State) (r : ByteResult) (e : FramerEvent) :
    (s.receiveByte r).outputs = s.outputs ++ [.framer e] ↔ r.2 = some e := by
  obtain ⟨rx, ev⟩ := r
  cases ev <;> simp

/-- Settles O3: RX.END mode by mode; its blob is the buffer, and no other byte operation raises a blob. -/
theorem endClosesTheFrameInEveryMode : Obligations.EndClosesTheFrameInEveryMode := by
  intro s
  refine ⟨by simp [decode_rxsym, classifyRx], fun hm hbuf => ?_, fun hm hbuf => ?_, fun hm => ?_, fun hm => ?_,
    fun t b hbound hexec hout => ?_, fun i t b hi hexec hmem => ?_⟩
  · rw [exec_rxEnd, rxEndStep_of_empty hm hbuf, State.receiveByte_none]
    rfl
  · rw [exec_rxEnd, rxEndStep_of_nonempty hm hbuf]
    rfl
  · rw [exec_rxEnd, rxEndStep_of_escaped hm]
    rfl
  · rw [exec_rxEnd, rxEndStep_of_drop hm, State.receiveByte_none]
    rfl
  · cases hexec
    have hblob := (State.receiveByte_outputs_eq_append s _ _).1 hout
    obtain ⟨-, rfl, hne⟩ := (rxEndStep_blob_iff s.rx b).1 hblob
    exact ⟨List.length_pos_iff.2 hne, hbound⟩
  · obtain ⟨r, hr, hne⟩ := exec_byte_raises_no_blob hi s
    rw [hr] at hexec
    cases hexec
    exact (State.mem_receiveByte_outputs hmem).resolve_right (hne b)

/-! ### RX.ESC (R101) -/

/-- A byte operation that does nothing in the state at hand leaves the machine as it is. -/
theorem exec_byte_of_ignored {i : Instr} {s : State} {r : ByteResult} (hi : exec i s = .next (s.receiveByte r))
    (hr : r = (s.rx, none)) : exec i s = .next s := by
  rw [hi, hr, State.receiveByte_none]

/-- Settles O4: RX.ESC mode by mode; in DROP mode RX.END then finds the same state. -/
theorem escOpensAnEscapeOrIsBad : Obligations.EscOpensAnEscapeOrIsBad := by
  intro s
  refine ⟨fun hwf => Laws.DecodeEncode.rxEsc s.config hwf rfl, fun hm => ?_, fun hm => ?_, fun hm => ?_⟩
  · rw [exec_rxEsc, rxEscStep, hm, State.receiveByte_none]
  · rw [exec_rxEsc, rxEscStep, hm]
    rfl
  · have hignored : exec .rxEsc s = .next s := exec_byte_of_ignored (exec_rxEsc s) (by simp [rxEscStep, hm])
    refine ⟨hignored, ?_⟩
    rw [runOps_cons_of_next hignored, runOps_cons_of_next (exec_rxEnd s), runOps_nil, rxEndStep_of_drop hm,
      State.receiveByte_none]
    rfl

/-! ### RX.ESC_END and RX.ESC_ESC (R102, R103) -/

/-- A byte operation that in ESCAPED mode is Append of `data`, in NORMAL mode Append of `code`, and nothing in DROP
mode: what it does to the machine. -/
theorem exec_substitute_rows {i : Instr} {s : State} {r : ByteResult} {code data : Byte}
    (hi : exec i s = .next (s.receiveByte r)) (hescaped : s.rx.mode = .escaped → r = append s.config s.rx data)
    (hnormal : s.rx.mode = .normal → r = append s.config s.rx code) (hdrop : s.rx.mode = .drop → r = (s.rx, none)) :
    (s.rx.mode = .escaped → s.config.maxBuf ≠ some s.rx.buf.length →
      exec i s = .next { s with rx := ⟨.normal, s.rx.buf ++ [data]⟩ }) ∧
    (s.rx.mode = .normal → s.config.maxBuf ≠ some s.rx.buf.length →
      exec i s = .next { s with rx := ⟨.normal, s.rx.buf ++ [code]⟩ }) ∧
    (s.rx.mode ≠ .drop → s.config.maxBuf = some s.rx.buf.length →
      exec i s = .next { s with rx := ⟨.drop, []⟩, outputs := s.outputs ++ [.framer (.drop .overflow)] }) ∧
    (s.rx.mode = .drop → exec i s = .next s) := by
  refine ⟨fun hm hroom => ?_, fun hm hroom => ?_, fun hm hfull => ?_, fun hm => exec_byte_of_ignored hi (hdrop hm)⟩
  · rw [hi, hescaped hm, State.receiveByte_append_of_room data hroom]
  · rw [hi, hnormal hm, State.receiveByte_append_of_room code hroom]
  · cases hmode : s.rx.mode with
    | normal => rw [hi, hnormal hmode, State.receiveByte_append_of_full code hfull]
    | escaped => rw [hi, hescaped hmode, State.receiveByte_append_of_full data hfull]
    | drop => exact absurd hmode hm

/-- A byte that is new in the buffer after an Append is the one appended. -/
theorem eq_of_mem_append_buf {c : Config} {rx : RxState} {x b : Byte} (hnew : b ∉ rx.buf)
    (hmem : b ∈ (append c rx x).1.buf) : b = x := by
  by_cases hfull : c.maxBuf = some rx.buf.length
  · simp [append_of_full x hfull] at hmem
  · simpa [append_of_room x hfull, hnew] using hmem

/-- How a wire byte puts a new data byte into the buffer: as itself in NORMAL mode, or in ESCAPED mode as the
substitute code that stands for it. -/
theorem feedByte_new_byte {c : Config} (hwf : c.wf = true) {rx : RxState} {w b : Byte} (hnew : b ∉ rx.buf)
    (hmem : b ∈ (feedByte c rx w).1.buf) :
    (w = b ∧ w ≠ c.endByte ∧ w ≠ c.escByte) ∨ (rx.mode = .escaped ∧ w = c.escEndByte ∧ b = c.endByte) ∨
    (rx.mode = .escaped ∧ w = c.escEscByte ∧ b = c.escByte) := by
  by_cases hend : w = c.endByte
  · simp [hend, feedByte_end] at hmem
  cases hm : rx.mode with
  | normal =>
    by_cases hesc : w = c.escByte
    · rw [hesc, feedByte_esc_of_normal hwf hm] at hmem
      exact absurd hmem hnew
    · rw [feedByte_literal_of_normal hm hend hesc] at hmem
      exact .inl ⟨(eq_of_mem_append_buf hnew hmem).symm, hend, hesc⟩
  | escaped =>
    by_cases hescEnd : w = c.escEndByte
    · rw [hescEnd, feedByte_escEnd_of_escaped hwf hm] at hmem
      exact .inr (.inl ⟨rfl, hescEnd, eq_of_mem_append_buf hnew hmem⟩)
    by_cases hescEsc : w = c.escEscByte
    · rw [hescEsc, feedByte_escEsc_of_escaped hwf hm] at hmem
      exact .inr (.inr ⟨rfl, hescEsc, eq_of_mem_append_buf hnew hmem⟩)
    · simp [feedByte_bad_of_escaped hm hend hescEnd hescEsc] at hmem
  | drop =>
    rw [feedByte_of_drop hm hend] at hmem
    exact absurd hmem hnew

theorem Config.endByte_ne_escByte {c : Config} (hwf : c.wf = true) : c.endByte ≠ c.escByte := by
  rintro e
  simp [Config.wf, e] at hwf

theorem decode_escEndByte {c : Config} (hwf : c.wf = true) : decode c (.rxsym c.escEndByte) = .ok .rxEscEnd :=
  Laws.DecodeEncode.rxEscEnd c hwf rfl

theorem decode_escEscByte {c : Config} (hwf : c.wf = true) : decode c (.rxsym c.escEscByte) = .ok .rxEscEsc :=
  Laws.DecodeEncode.rxEscEsc c hwf rfl

/-- Settles O5: the rows of a substitute code that stands for `END`, the only way to a new `END` in the buffer. -/
theorem escEndYieldsTheDelimiterByte : Obligations.EscEndYieldsTheDelimiterByte := by
  intro s
  obtain ⟨hescaped, hnormal, hfull, hdrop⟩ := exec_substitute_rows (exec_rxEscEnd s)
    (fun hm => by rw [rxEscEndStep, hm]) (fun hm => by rw [rxEscEndStep, hm]) (fun hm => by rw [rxEscEndStep, hm])
  refine ⟨decode_escEndByte, hescaped, hnormal, hfull, hdrop, fun hwf w i t hdec hexec hnew hmem => ?_⟩
  rw [exec_of_decode_rxsym hdec hexec] at hmem
  obtain ⟨hw, hend, -⟩ | ⟨hm, rfl, -⟩ | ⟨-, -, hb⟩ := feedByte_new_byte hwf hnew hmem
  · exact absurd hw hend
  · exact ⟨Except.ok.inj (hdec.symm.trans (decode_escEndByte hwf)), hm⟩
  · exact absurd hb (Config.endByte_ne_escByte hwf)

/-- Settles O6: the rows of a substitute code that stands for `ESC`, the only way to a new `ESC` in the buffer. -/
theorem escEscYieldsTheEscapeByte : Obligations.EscEscYieldsTheEscapeByte := by
  intro s
  obtain ⟨hescaped, hnormal, hfull, hdrop⟩ := exec_substitute_rows (exec_rxEscEsc s)
    (fun hm => by rw [rxEscEscStep, hm]) (fun hm => by rw [rxEscEscStep, hm]) (fun hm => by rw [rxEscEscStep, hm])
  refine ⟨decode_escEscByte, hescaped, hnormal, hfull, hdrop, fun hwf w i t hdec hexec hnew hmem => ?_⟩
  rw [exec_of_decode_rxsym hdec hexec] at hmem
  obtain ⟨hw, -, hesc⟩ | ⟨-, -, hb⟩ | ⟨hm, rfl, -⟩ := feedByte_new_byte hwf hnew hmem
  · exact absurd hw hesc
  · exact absurd hb.symm (Config.endByte_ne_escByte hwf)
  · exact ⟨Except.ok.inj (hdec.symm.trans (decode_escEscByte hwf)), hm⟩

/-! ### RX.DATA (R104) -/

theorem classifyRx_of_not_special {c : Config} {w : Byte} (h : c.isSpecial w = false) : classifyRx c w = .rxData w := by
  obtain ⟨hend, hesc, hescEnd, hescEsc⟩ := Config.isSpecial_eq_false.1 h
  simp [classifyRx, hend, hesc, hescEnd, hescEsc]

/-- Settles O7: RX.DATA mode by mode. -/
theorem otherBytesAreAppendedOrBad : Obligations.OtherBytesAreAppendedOrBad := by
  intro s w hw
  have hspecial : s.config.isSpecial w = false := by simpa [Instr.wf] using hw
  refine ⟨congrArg Except.ok (classifyRx_of_not_special hspecial), fun hm hroom => ?_, fun hm hfull => ?_,
    fun hm => ?_, fun hm => exec_byte_of_ignored (exec_rxData w s) (by simp [rxDataStep, hm])⟩
  · rw [exec_rxData, rxDataStep, hm, State.receiveByte_append_of_room w hroom]
  · rw [exec_rxData, rxDataStep, hm, State.receiveByte_append_of_full w hfull]
  · rw [exec_rxData, rxDataStep, hm]
    rfl

end Sys2Proof.Machine
end

section
/-! PROOFS. The transmit framer's byte operations and SEND's packet, and the round trip of a packet from any receive
state (R110 to R114 of 41_framer_transmit.md). -/

namespace Sys2Proof.Machine

open Sys2Proof.Statements

/-! ### The round trip of the framer (R114) -/

/-- What a leading `END` closes: nothing, a stale blob, or an escape that was pending. -/
theorem rxEndStep_events_cases (rx : RxState) :
    (rxEndStep rx).2.toList = [] ∨ (∃ b, (rxEndStep rx).2.toList = [.blob b]) ∨
      (rxEndStep rx).2.toList = [.drop .badEscape] := by
  cases hm : rx.mode with
  | normal =>
    by_cases hbuf : rx.buf = []
    · exact .inl (by rw [rxEndStep_of_empty hm hbuf]; rfl)
    · exact .inr (.inl ⟨rx.buf, by rw [rxEndStep_of_nonempty hm hbuf]; rfl⟩)
  | escaped => exact .inr (.inr (by rw [rxEndStep_of_escaped hm]; rfl))
  | drop => exact .inl (by rw [rxEndStep_of_drop hm]; rfl)

/-- FEED of a packet of a blob that fits, from any state: what its leading `END` closes, then the blob. -/
theorem exec_feed_wirePacket {s : State} (hwf : s.config.wf = true) {blob : Bytes} (hne : blob ≠ [])
    (hfits : s.config.fits blob.length = true) :
    exec (.feed (wirePacket s.config blob)) s = .next { s with
      rx := RxState.reset,
      outputs := s.outputs ++ (rxEndStep s.rx).2.toList.map .framer ++ [.framer (.blob blob)] } := by
  rw [exec_feed, feedChunk_wirePacket hwf s.rx blob hne hfits]
  simp [State.receive]

/-- Settles O28: from the reset state the packet's chunks are the packet, which gives exactly the blob; from any state
its leading `END` closes the stale frame with at most one event. -/
theorem framerRoundTrip : Obligations.FramerRoundTrip := by
  intro s B W hwf hlen hfits hsend
  have hne : B ≠ [] := List.ne_nil_of_length_pos hlen
  obtain rfl : W = wirePacket s.config B := Output.wire.inj (eq_of_exec_emit (exec_send B s) hsend)
  exact ⟨fun chunks hrx hchunks => feed_feedsChunks.runOps_wirePacket hwf hrx hne hfits hchunks,
    (rxEndStep s.rx).2.toList, rxEndStep_events_cases s.rx, exec_feed_wirePacket hwf hne hfits⟩

/-! ### SEND (R113, R65) -/

/-- An escaped byte takes two wire bytes, any other byte one. -/
theorem escByteImage_length (c : Config) (b : Byte) :
    (escByteImage c b).length = if c.isEscaped b then 2 else 1 := by
  by_cases hend : b = c.endByte
  · simp [hend, escByteImage_end, Config.isEscaped]
  · by_cases hesc : b = c.escByte
    · rw [escByteImage, if_neg hend, if_pos hesc]
      simp [escOfEsc, Config.isEscaped, hesc]
    · have hlit : c.isEscaped b = false := Config.isEscaped_eq_false.2 ⟨hend, hesc⟩
      simp [escByteImage_lit hlit, hlit]

/-- Escaping adds one wire byte for each byte that is escaped. -/
theorem escapeBytes_length (c : Config) (bs : Bytes) :
    (escapeBytes c bs).length = bs.length + bs.countP c.isEscaped := by
  induction bs with
  | nil => rfl
  | cons b bs ih =>
    rw [escapeBytes_cons, List.length_append, escByteImage_length, ih, List.length_cons, List.countP_cons]
    split <;> omega

/-- A packet has the blob's `N` bytes, two delimiters, and one more byte for each of its `k` escapes (R65). -/
theorem wirePacket_length (c : Config) (blob : Bytes) :
    (wirePacket c blob).length = blob.length + 2 + blob.countP c.isEscaped := by
  simp only [wirePacket, List.length_append, List.length_singleton, escapeBytes_length]
  omega

/-- Settles O27: SEND emits the wire packet, whose escaped part holds no `END`. -/
theorem sendBuildsTheWirePacket : Obligations.SendBuildsTheWirePacket := by
  intro s blob
  simp only [escaped_eq_escapeBytes]
  exact ⟨rfl, exec_send blob s, fun hwf => ⟨end_not_mem_escapeBytes hwf blob, wirePacket_length s.config blob⟩⟩

/-! ### The byte operations (R110 to R112) -/

theorem exec_txbEnd (s : State) : exec .txbEnd s = .next (s.emit (.wire (escOfEnd s.config))) := rfl

theorem exec_txbEsc (s : State) : exec .txbEsc s = .next (s.emit (.wire (escOfEsc s.config))) := rfl

theorem exec_txbLit (b : Byte) (s : State) : exec (.txbLit b) s = .next (s.emit (.wire (escOfLit b))) := rfl

/-- Settles O23: `END` is the first row of the class table, and its operation emits `esc(END)`. -/
theorem txbEndEmitsEscThenEscEnd : Obligations.TxbEndEmitsEscThenEscEnd := fun s =>
  ⟨by simp [decode_txsym, classifyTx], exec_txbEnd s⟩

/-- Settles O24, with the decoding of `ESC` from its decode-after-encode law. -/
theorem txbEscEmitsEscThenEscEsc : Obligations.TxbEscEmitsEscThenEscEsc := fun s =>
  ⟨fun hwf => Laws.DecodeEncode.txbEsc s.config hwf rfl, exec_txbEsc s⟩

theorem classifyTx_of_not_escaped {c : Config} {b : Byte} (h : c.isEscaped b = false) : classifyTx c b = .txbLit b := by
  obtain ⟨hend, hesc⟩ := Config.isEscaped_eq_false.1 h
  simp [classifyTx, hend, hesc]

theorem txbLit_wf_iff {c : Config} {b : Byte} : (Instr.txbLit b).wf c = true ↔ c.isEscaped b = false := by
  simp [Instr.wf]

/-- With distinct framing bytes the substitute codes need no escape (R73). -/
theorem Config.substitutes_not_escaped {c : Config} (hwf : c.wf = true) :
    c.isEscaped c.escEndByte = false ∧ c.isEscaped c.escEscByte = false := by
  simp only [Config.wf, Bool.and_eq_true, bne_iff_ne] at hwf
  obtain ⟨⟨⟨⟨⟨-, hendEscEnd⟩, hendEscEsc⟩, hescEscEnd⟩, hescEscEsc⟩, -⟩ := hwf
  exact ⟨Config.isEscaped_eq_false.2 ⟨hendEscEnd.symm, hescEscEnd.symm⟩,
    Config.isEscaped_eq_false.2 ⟨hendEscEsc.symm, hescEscEsc.symm⟩⟩

/-- Settles O25: a byte that needs no escape falls through to the last row of the class table. -/
theorem txbLitEmitsTheByte : Obligations.TxbLitEmitsTheByte := by
  intro s b hb
  simp only [txbLit_wf_iff] at hb ⊢
  exact ⟨congrArg Except.ok (classifyTx_of_not_escaped hb), exec_txbLit b s, Config.substitutes_not_escaped⟩

end Sys2Proof.Machine
end

section
/-! PROOFS. ENCODE and DECODE: what each answers, and that they are inverse to each other (R120 to R122 of
42_frame_codec.md). -/

namespace Sys2Proof.Machine

/-! ### ENCODE and DECODE (R120, R121) -/

/-- Settles O30: the two bytes are those of the code, which their concatenation gives back. -/
theorem encodeAppendsTheCode : Obligations.EncodeAppendsTheCode := by
  intro s sapId msgId payload
  have hcode := assembleTrailer_eq (trailerLo (crc16 ([sapId, msgId] ++ payload)))
    (trailerHi (crc16 ([sapId, msgId] ++ payload)))
  rw [assembleTrailer_lo_hi] at hcode
  refine ⟨rfl, _, _, ?_, exec_encode sapId msgId payload s, encodeBlob_length sapId msgId payload⟩
  rw [← hcode]
  exact exec_crc16 _ s

/-- Settles O31: DECODE on a short blob, and on the fields that every longer blob has. -/
theorem decodeChecksLengthThenCode : Obligations.DecodeChecksLengthThenCode := by
  intro s
  refine ⟨fun _ => rfl, fun blob hshort => ?_, fun _ hlen => blob_fields_of_length hlen,
    fun sapId msgId payload lo hi code hcode => ?_⟩
  · rw [exec_decode, decodeBlob_short hshort]
    rfl
  · obtain rfl : code = crc16 ([sapId, msgId] ++ payload) :=
      Output.code.inj (eq_of_exec_emit (exec_crc16 _ s) hcode)
    rw [exec_decode, decodeBlob_fields, assembleTrailer_eq]
    rfl

/-! ### The round trip (R122) -/

/-- ENCODE of a Frame that DECODE answered is the blob it was read from. -/
theorem encodeBlob_of_decodeBlob {blob : Bytes} {f : Frame} (h : decodeBlob blob = .frame f) :
    encodeBlob f.sapId f.msgId f.payload = blob := by
  by_cases hshort : blob.length < 4
  · rw [decodeBlob_short hshort] at h
    cases h
  · obtain ⟨sapId, msgId, payload, lo, hi, rfl⟩ := blob_fields_of_length (Nat.le_of_not_lt hshort)
    rw [decodeBlob_fields] at h
    split at h
    next hcode =>
      cases h
      obtain ⟨hlo, hhi⟩ := trailer_bytes_of_assemble hcode.symm
      rw [encodeBlob_eq, ← hlo, ← hhi]
    next => cases h

/-- Settles O32: DECODE undoes ENCODE for every triple, and ENCODE undoes DECODE for every blob that decodes. -/
theorem codecRoundTrip : Obligations.CodecRoundTrip := by
  intro s
  refine ⟨fun sapId msgId payload B code hB hcode => ?_, fun B f hf => ?_⟩
  · obtain rfl : B = encodeBlob sapId msgId payload :=
      Output.blob.inj (eq_of_exec_emit (exec_encode sapId msgId payload s) hB)
    obtain rfl : code = crc16 ([sapId, msgId] ++ payload) :=
      Output.code.inj (eq_of_exec_emit (exec_crc16 _ s) hcode)
    rw [exec_decode, decodeBlob_encodeBlob]
    rfl
  · have hdec : decodeBlob B = .frame f := (Output.codec.inj (eq_of_exec_emit (exec_decode B s) hf)).symm
    rw [exec_encode, encodeBlob_of_decodeBlob hdec]
    rfl

end Sys2Proof.Machine
end

section
/-! PROOFS. The transmission errors that DECODE always finds. Every blob that ENCODE makes leaves the accumulator at one
residue, so by linearity the difference of two such blobs takes a zero accumulator to zero; and no such difference lies
within 16 consecutive bits (R123 of 42_frame_codec.md, R137, R138 of 43_crc16.md, C6 of 90_conflicts.md). -/

namespace Sys2Proof.Machine

/-! ### Two bytes at a time -/

@[simp] theorem getLsbD_zext16 (b : Byte) (i : Nat) : (zext16 b).getLsbD i = b.getLsbD i := by
  rw [zext16, BitVec.getLsbD_setWidth, Bool.and_eq_right_iff_imp, decide_eq_true_iff]
  exact fun hbit => (BitVec.lt_of_getLsbD hbit).trans (by decide)

theorem assembleTrailer_eq_xor (lo hi : Byte) : assembleTrailer lo hi = zext16 lo ^^^ (zext16 hi <<< 8) := by
  apply BitVec.eq_of_getLsbD_eq
  intro i _
  rcases Nat.lt_or_ge i 8 with h | h
  · simp [assembleTrailer, h]
  · simp [assembleTrailer, BitVec.getLsbD_of_ge lo i h]

/-- Two bytes enter the accumulator as one 16-bit word. -/
theorem crcUpdate_crcUpdate (acc : U16) (lo hi : Byte) :
    crcUpdate (crcUpdate acc lo) hi = crcShifts 16 (acc ^^^ assembleTrailer lo hi) := by
  have hhigh : crcShifts 8 (zext16 hi <<< 8) = zext16 hi :=
    crcShifts_shiftLeft 8 _ fun i hi' => by rw [getLsbD_zext16, BitVec.getLsbD_of_ge hi i (by omega)]
  rw [assembleTrailer_eq_xor, ← BitVec.xor_assoc, crcShifts_add 8 8, crcShifts_xor 8 _ (zext16 hi <<< 8), hhigh]
  rfl

/-- Two bytes that take the accumulator to 0 are the accumulator's own. -/
theorem eq_assembleTrailer_of_crcUpdate_eq_zero {acc : U16} {lo hi : Byte}
    (h : crcUpdate (crcUpdate acc lo) hi = 0) : acc = assembleTrailer lo hi := by
  rw [crcUpdate_crcUpdate] at h
  exact BitVec.xor_eq_zero_iff.1 (crcShifts_eq_zero 16 h)

/-- The residue: what every blob of ENCODE leaves in the accumulator. -/
theorem crcAbsorb_encodeBlob (sapId msgId : Byte) (payload : Bytes) :
    crcAbsorb crcInit (encodeBlob sapId msgId payload) = crcShifts 16 Config.crcXorOut := by
  rw [encodeBlob_eq, crcAbsorb_append, crcAbsorb_cons, crcAbsorb_cons, crcAbsorb_nil, crcUpdate_crcUpdate,
    assembleTrailer_lo_hi, crc16, crcFinal, ← BitVec.xor_assoc, BitVec.xor_self, BitVec.zero_xor]

/-- The word of the first two bytes, a missing byte read as 0. -/
def leadingWord (bs : Bytes) : U16 := assembleTrailer (byteAt bs 0) (byteAt bs 1)

/-- Where only the first two bytes can be nonzero, they cancel the accumulator only if they are equal to it. -/
theorem eq_leadingWord_of_crcAbsorb_eq_zero {acc : U16} {bs : Bytes} (hzero : ∀ k, 2 ≤ k → byteAt bs k = 0)
    (h : crcAbsorb acc bs = 0) : acc = leadingWord bs := by
  match bs, hzero, h with
  | [], _, h => exact eq_assembleTrailer_of_crcUpdate_eq_zero (by
      rw [show acc = 0 from h]
      simp [byteAt])
  | [lo], _, h => exact eq_assembleTrailer_of_crcUpdate_eq_zero (by
      rw [show crcUpdate acc (byteAt [lo] 0) = 0 from h]
      simp [byteAt])
  | lo :: hi :: rest, hzero, h =>
    have hrest : rest = List.replicate rest.length 0 := by
      refine List.eq_replicate_of_mem fun b hb => ?_
      obtain ⟨k, hk, rfl⟩ := List.mem_iff_getElem.1 hb
      simpa [byteAt, hk] using hzero (k + 2) (by omega)
    rw [crcAbsorb_cons, crcAbsorb_cons, hrest] at h
    exact eq_assembleTrailer_of_crcUpdate_eq_zero (crcAbsorb_zeros_eq_zero _ h)

/-! ### Bursts (R123, G4, R44) -/

/-- All bits that are set, in the order they enter the CRC, lie within the 16 from the `p`-th on. -/
def BurstWithin (p : Nat) (bs : Bytes) : Prop :=
  ∀ k j, (byteAt bs k).getLsbD j = true → p ≤ 8 * k + j ∧ 8 * k + j < p + 16

/-- After its first byte, a burst is still one of up to 16 bits, also where it had begun in that byte. -/
theorem BurstWithin.tail {p : Nat} {b : Byte} {bs : Bytes} (h : BurstWithin p (b :: bs)) :
    BurstWithin (p - 8) bs := by
  intro k j hbit
  have := h (k + 1) j hbit
  omega

theorem BurstWithin.getLsbD_eq_false {p : Nat} {bs : Bytes} (h : BurstWithin p bs) {k j : Nat}
    (hout : 8 * k + j < p ∨ p + 16 ≤ 8 * k + j) : (byteAt bs k).getLsbD j = false := by
  rw [Bool.eq_false_iff]
  intro hbit
  have := h k j hbit
  omega

/-- Steps that meet no set bit only shift. -/
theorem crcShifts_of_low_bits_zero {n : Nat} {a : U16} (h : ∀ i, i < n → a.getLsbD i = false) :
    crcShifts n a = a >>> n := by
  have hshift : a = (a >>> n) <<< n := by
    apply BitVec.eq_of_getLsbD_eq
    intro i hi
    rcases Nat.lt_or_ge i n with hin | hin
    · rw [h i hin, BitVec.getLsbD_shiftLeft]
      simp [hin]
    · simp [hi, Nat.not_lt.2 hin, Nat.add_sub_cancel' hin]
  conv_lhs => rw [hshift]
  exact crcShifts_shiftLeft n _ fun i hi => by
    rw [BitVec.getLsbD_ushiftRight, BitVec.getLsbD_of_ge a (n + i) (by omega)]

/-- A word below bit `8 + p` is what 8 steps make of a byte from bit `p` on only if the byte is 0: the byte's bits and
the word's, moved back to where they entered, do not overlap. -/
theorem eq_zero_of_crcShifts_eq {p : Nat} (hp : p < 8) {b : Byte} {w : U16} (h : crcShifts 8 (zext16 b) = w)
    (hb : ∀ j, j < p → b.getLsbD j = false) (hw : ∀ i, 8 + p ≤ i → w.getLsbD i = false) : b = 0 := by
  have hback : crcShifts 8 (zext16 b) = crcShifts (8 - p) (zext16 b >>> p) := by
    rw [← crcShifts_of_low_bits_zero (by simpa using hb), ← crcShifts_add, Nat.add_sub_cancel' hp.le]
  have hword : crcShifts (8 - p) (w <<< (8 - p)) = w :=
    crcShifts_shiftLeft (8 - p) w fun i hi => hw i (by omega)
  have heq : zext16 b >>> p = w <<< (8 - p) := by
    refine BitVec.xor_eq_zero_iff.1 (crcShifts_eq_zero (8 - p) ?_)
    rw [crcShifts_xor, hword, ← hback, h]
    exact BitVec.xor_self
  apply BitVec.eq_of_getLsbD_eq
  intro j hj
  rcases Nat.lt_or_ge j p with hjp | hjp
  · simpa using hb j hjp
  · have hbit : (zext16 b >>> p).getLsbD (j - p) = (w <<< (8 - p)).getLsbD (j - p) := by rw [heq]
    rw [BitVec.getLsbD_ushiftRight, Nat.add_sub_cancel' hjp, getLsbD_zext16, BitVec.getLsbD_shiftLeft] at hbit
    simpa [show j - p < 8 - p by omega] using hbit

/-- A burst that leaves the accumulator 0 has no bit in its first byte. -/
theorem BurstWithin.head_eq_zero {p : Nat} {b : Byte} {bs : Bytes} (h : BurstWithin p (b :: bs))
    (h0 : crcAbsorb 0 (b :: bs) = 0) : b = 0 := by
  have hb : ∀ j, j < p → b.getLsbD j = false := fun j hj =>
    h.getLsbD_eq_false (k := 0) (.inl (by omega))
  rcases Nat.lt_or_ge p 8 with hp | hp
  · have hbs : ∀ k j, p + 8 ≤ 8 * k + j → (byteAt bs k).getLsbD j = false := fun k j hkj =>
      h.getLsbD_eq_false (k := k + 1) (.inr (by omega))
    have hword : crcUpdate 0 b = leadingWord bs := by
      refine eq_leadingWord_of_crcAbsorb_eq_zero (fun k hk => ?_) h0
      exact BitVec.eq_of_getLsbD_eq fun j _ => by simpa using hbs k j (by omega)
    refine eq_zero_of_crcShifts_eq hp (by simpa [crcUpdate] using hword) hb fun i hi => ?_
    have hhi : (byteAt bs 1).getLsbD (i - 8) = false := hbs 1 (i - 8) (by omega)
    simp [leadingWord, assembleTrailer, hhi, BitVec.getLsbD_of_ge (byteAt bs 0) i (by omega)]
  · exact BitVec.eq_of_getLsbD_eq fun j hj => by simpa using hb j (by omega)

/-- A burst that leaves the accumulator 0 is none: no burst of up to 16 bits goes undetected. -/
theorem BurstWithin.eq_zero {bs : Bytes} :
    ∀ {p : Nat}, BurstWithin p bs → crcAbsorb 0 bs = 0 → ∀ b ∈ bs, b = 0 := by
  induction bs with
  | nil => simp
  | cons b bs ih =>
    intro p h h0
    obtain rfl := h.head_eq_zero h0
    exact List.forall_mem_cons.2 ⟨rfl, ih h.tail (by simpa [crcAbsorb_cons] using h0)⟩

/-! ### DECODE of a blob with errors (R123) -/

/-- The difference of two blobs of one length, byte by byte. -/
theorem byteAt_zipWith_xor {B B' : Bytes} (hlen : B'.length = B.length) (k : Nat) :
    byteAt (List.zipWith (· ^^^ ·) B B') k = byteAt B k ^^^ byteAt B' k := by
  rcases Nat.lt_or_ge k B.length with hk | hk
  · simp [byteAt, hk, hlen]
  · simp [byteAt, hk, hlen]

/-- The two blobs differ only within the 16 bits from the `p`-th on. -/
def DifferWithin (p : Nat) (B B' : Bytes) : Prop :=
  ∀ k j, k < B.length → j < 8 → (B.getD k 0).getLsbD j ≠ (B'.getD k 0).getLsbD j →
    p ≤ 8 * k + j ∧ 8 * k + j < p + 16

theorem DifferWithin.burstWithin {p : Nat} {B B' : Bytes} (hlen : B'.length = B.length) (h : DifferWithin p B B') :
    BurstWithin p (List.zipWith (· ^^^ ·) B B') := by
  intro k j hbit
  rw [byteAt_zipWith_xor hlen, BitVec.getLsbD_xor, bne_iff_ne] at hbit
  refine h k j ?_ ?_ hbit
  · by_contra hk
    simp [byteAt, hlen, Nat.not_lt.1 hk] at hbit
  · by_contra hj
    simp [BitVec.getLsbD_of_ge _ j (Nat.not_lt.1 hj)] at hbit

/-- Two blobs of one length that differ only within 16 bits and give the same accumulator are equal. -/
theorem DifferWithin.eq_of_crcAbsorb_eq {p : Nat} {B B' : Bytes} (h : DifferWithin p B B')
    (hlen : B'.length = B.length) (hcrc : crcAbsorb crcInit B' = crcAbsorb crcInit B) : B' = B := by
  have h0 : crcAbsorb 0 (List.zipWith (· ^^^ ·) B B') = 0 := by
    have := crcAbsorb_zipWith B B' crcInit crcInit hlen.symm
    rwa [hcrc, BitVec.xor_self, BitVec.xor_self] at this
  have hzero := (h.burstWithin hlen).eq_zero h0
  refine List.ext_getElem hlen fun k hk' hk => ?_
  have hxor : B[k] ^^^ B'[k] = 0 := hzero _ (List.mem_iff_getElem.2 ⟨k, by simp [hk, hk'], by simp⟩)
  exact (BitVec.xor_eq_zero_iff.1 hxor).symm

theorem decodeBlob_ne_tooShort {blob : Bytes} (hlen : 4 ≤ blob.length) : decodeBlob blob ≠ .tooShort := by
  obtain ⟨sapId, msgId, payload, lo, hi, rfl⟩ := blob_fields_of_length hlen
  rw [decodeBlob_fields]
  split <;> nofun

/-- DECODE of a blob of ENCODE with a burst error of up to 16 bits. -/
theorem decodeBlob_of_differWithin {sapId msgId : Byte} {payload B' : Bytes} {p : Nat}
    (hlen : B'.length = (encodeBlob sapId msgId payload).length) (hne : B' ≠ encodeBlob sapId msgId payload)
    (hdiff : DifferWithin p (encodeBlob sapId msgId payload) B') : decodeBlob B' = .integrityMismatch := by
  cases hdec : decodeBlob B' with
  | frame f =>
    refine absurd (hdiff.eq_of_crcAbsorb_eq hlen ?_) hne
    rw [← encodeBlob_of_decodeBlob hdec, crcAbsorb_encodeBlob, crcAbsorb_encodeBlob]
  | tooShort => exact absurd hdec (decodeBlob_ne_tooShort (by simp [hlen]))
  | integrityMismatch => rfl

theorem getD_set_self {B : Bytes} {k : Nat} (b : Byte) (hk : k < B.length) : (B.set k b).getD k 0 = b := by
  simp [hk]

theorem getLsbD_one_shiftLeft {j j' : Nat} : (1#8 <<< j).getLsbD j' = true ↔ j' < 8 ∧ j' = j := by
  rw [← BitVec.twoPow_eq, BitVec.getLsbD_twoPow, Bool.and_eq_true, decide_eq_true_iff, decide_eq_true_iff]
  omega

theorem set_flip_ne {B : Bytes} {k j : Nat} (hk : k < B.length) (hj : j < 8) :
    B.set k (B.getD k 0 ^^^ (1#8 <<< j)) ≠ B := by
  intro heq
  have hbyte : B.getD k 0 ^^^ (1#8 <<< j) = B.getD k 0 := by
    conv_rhs => rw [← heq, getD_set_self _ hk]
  have hzero : 1#8 <<< j = 0 := by simpa using hbyte
  have hbit : (1#8 <<< j).getLsbD j = true := getLsbD_one_shiftLeft.2 ⟨hj, rfl⟩
  simp [hzero] at hbit

/-- A flipped bit is a difference within the 16 bits that begin with it. -/
theorem differWithin_set_flip (B : Bytes) (k j : Nat) :
    DifferWithin (8 * k + j) B (B.set k (B.getD k 0 ^^^ (1#8 <<< j))) := by
  intro k' j' hk' hj' hne
  by_cases hk : k = k'
  · subst hk
    have hflip : (1#8 <<< j).getLsbD j' = true := by
      by_contra hoff
      refine hne ?_
      rw [getD_set_self _ hk', BitVec.getLsbD_xor, Bool.eq_false_iff.2 hoff, Bool.xor_false]
    rw [getLsbD_one_shiftLeft] at hflip
    omega
  · simp [List.getElem?_set_ne hk] at hne

/-- Settles O34: a blob that decodes is the encoding of its Frame. -/
theorem burstOfSixteenBitsIsDetected : Obligations.BurstOfSixteenBitsIsDetected := by
  intro s B B' f p hB hlen hne hdiff
  have hdec : decodeBlob B = .frame f := (Output.codec.inj (eq_of_exec_emit (exec_decode B s) hB)).symm
  obtain rfl := encodeBlob_of_decodeBlob hdec
  rw [exec_decode, decodeBlob_of_differWithin hlen hne hdiff]
  rfl

/-- Settles O33: a flipped bit is a burst of one bit. -/
theorem singleBitFlipIsDetected : Obligations.SingleBitFlipIsDetected := by
  intro s sapId msgId payload B k j hB hk hj
  obtain rfl : B = encodeBlob sapId msgId payload :=
    Output.blob.inj (eq_of_exec_emit (exec_encode sapId msgId payload s) hB)
  rw [exec_decode, decodeBlob_of_differWithin List.length_set (set_flip_ne hk hj) (differWithin_set_flip _ k j)]
  rfl

end Sys2Proof.Machine
end

section
/-! PROOFS. The CRC unit: CRC16 as the operations it is made of, CRC.UPDATE by its table, the code's affinity over
GF(2), and CRC.CHECK as the test for the residue (R132 to R137 of 43_crc16.md). -/

namespace Sys2Proof.Machine

/-! ### The operations (R132 to R136) -/

theorem exec_crcInit (s : State) : exec .crcInit s = .next (s.emit (.acc crcInit)) := rfl

theorem exec_crcUpdate (acc : U16) (b : Byte) (s : State) :
    exec (.crcUpdate acc b) s = .next (s.emit (.acc (crcUpdate acc b))) := rfl

theorem exec_crcFinal (acc : U16) (s : State) :
    exec (.crcFinal acc) s = .next (s.emit (.code (crcFinal acc))) := rfl

theorem exec_crcCheck_short {blob : Bytes} (h : blob.length < 4) (s : State) :
    exec (.crcCheck blob) s = .next (s.emit (.check (Config.crcCheckShort blob))) := by
  simp [exec, execCrcCheck, Config.minBlob, h]

/-- What CRC16 is observed to answer is the code. -/
theorem exec_crc16_eq_iff {bs : Bytes} {s : State} {t : U16} :
    exec (.crc16 bs) s = .next (s.emit (.code t)) ↔ crc16 bs = t :=
  ⟨fun h => (Output.code.inj (eq_of_exec_emit (exec_crc16 bs s) h)).symm, fun h => h ▸ exec_crc16 bs s⟩

/-! ### CRC.INIT and CRC.FINAL (R132, R134) -/

theorem crcFinal_eq_not (acc : U16) : crcFinal acc = ~~~acc := BitVec.xor_allOnes

theorem crcFinal_crcFinal (acc : U16) : crcFinal (crcFinal acc) = acc := by
  rw [crcFinal_eq_not, crcFinal_eq_not, BitVec.not_not]

theorem crcFinal_xor_left (a b : U16) : crcFinal (a ^^^ b) = crcFinal a ^^^ b := by
  rw [crcFinal_eq_not, crcFinal_eq_not, BitVec.not_xor_left]

theorem crcFinal_xor_right (a b : U16) : crcFinal (a ^^^ b) = a ^^^ crcFinal b := BitVec.xor_assoc a b _

theorem crcFinal_xor_crcFinal (a b : U16) : crcFinal a ^^^ crcFinal b = a ^^^ b := by
  rw [← crcFinal_xor_left, crcFinal_xor_right, crcFinal_crcFinal]

/-- Settles O35: CRC.INIT returns the constant of R6. -/
theorem crcInitStartsAtAllOnes : Obligations.CrcInitStartsAtAllOnes :=
  fun s => ⟨rfl, exec_crcInit s⟩

/-- Settles O37: to xor with all ones is to complement. -/
theorem crcFinalComplements : Obligations.CrcFinalComplements := by
  intro s acc
  rw [← crcFinal_eq_not]
  exact ⟨rfl, exec_crcFinal acc s⟩

/-! ### CRC.UPDATE (R133) -/

/-- The steps of R133's pseudocode are the iterates of one of them. -/
theorem crcShifts_eq_iterate (n : Nat) : ∀ a, crcShifts n a = crcShift^[n] a := by
  induction n with
  | zero => exact fun _ => rfl
  | succ n ih => exact fun a => ih (crcShift a)

/-- A word is its low byte and its high byte. -/
theorem zext16_setWidth_xor (w : U16) : zext16 (w.setWidth 8) ^^^ ((w >>> 8) <<< 8) = w := by
  apply BitVec.eq_of_getLsbD_eq
  intro i hi
  rcases Nat.lt_or_ge i 8 with h | h
  · simp [h]
  · rw [BitVec.getLsbD_xor, getLsbD_zext16, BitVec.getLsbD_of_ge _ i h]
    simp [hi, Nat.not_lt.2 h, Nat.add_sub_cancel' h]

/-- Eight steps on a word: the steps of its low byte, and its high byte where the low one was. -/
theorem crcShifts_eight (w : U16) : crcShifts 8 w = (w >>> 8) ^^^ crcUpdate 0 (w.setWidth 8) := by
  have hhigh : crcShifts 8 ((w >>> 8) <<< 8) = w >>> 8 :=
    crcShifts_shiftLeft 8 _ fun i hi => by
      rw [BitVec.getLsbD_ushiftRight, BitVec.getLsbD_of_ge w (8 + i) (by omega)]
  have hlow : crcShifts 8 (zext16 (w.setWidth 8)) = crcUpdate 0 (w.setWidth 8) := by simp [crcUpdate]
  conv_lhs => rw [← zext16_setWidth_xor w, crcShifts_xor, hhigh, hlow, BitVec.xor_comm]

theorem zext16_ushiftRight_eight (b : Byte) : zext16 b >>> 8 = 0 := by
  apply BitVec.eq_of_getLsbD_eq
  intro i _
  simp

/-- The byte-table form: the table's entry `i` is what CRC.UPDATE makes of the byte `i` on accumulator 0. -/
theorem crcUpdate_eq_table (acc : U16) (b : Byte) :
    crcUpdate acc b = (acc >>> 8) ^^^ crcUpdate 0 ((acc ^^^ zext16 b).setWidth 8) := by
  rw [crcUpdate, crcShifts_eight, BitVec.ushiftRight_xor_distrib, zext16_ushiftRight_eight]
  simp

/-- Settles O36: CRC.UPDATE's steps as iterates, and by the table that CRC.UPDATE on accumulator 0 fills. -/
theorem crcUpdateIsEightShiftSteps : Obligations.CrcUpdateIsEightShiftSteps := by
  intro s acc b
  refine ⟨rfl, ?_, fun T hT => ?_, ?_⟩
  · rw [exec_crcUpdate, crcUpdate, crcShifts_eq_iterate]
    rfl
  · have hentry : ∀ i, T i = crcUpdate 0 i := fun i =>
      Output.acc.inj (eq_of_exec_emit (exec_crcUpdate 0 i s) (hT i))
    rw [hentry, exec_crcUpdate, crcUpdate_eq_table]
    rfl
  · rw [exec_crcUpdate, BitVec.ofNat_eq_ofNat, BitVec.ofNat_eq_ofNat, crcUpdate_zero]
    rfl

/-! ### CRC16 (R135, R137) -/

/-- CRC.FINAL undone: the accumulator that gave the code. -/
theorem crcAbsorb_crcInit (bs : Bytes) : crcAbsorb crcInit bs = crcFinal (crc16 bs) := (crcFinal_crcFinal _).symm

theorem crcAbsorb_take_succ (acc : U16) {bs : Bytes} {k : Nat} (h : k < bs.length) :
    crcAbsorb acc (bs.take (k + 1)) = crcUpdate (crcAbsorb acc (bs.take k)) bs[k] := by
  rw [List.take_succ_eq_append_getElem h, crcAbsorb_append]
  rfl

/-- Settles O38: the accumulator after `k` updates is the one that the first `k` bytes leave. -/
theorem crc16IsInitUpdatesFinal : Obligations.Crc16IsInitUpdatesFinal := by
  intro s
  refine ⟨fun _ => rfl, exec_crc16_eq_iff.2 (by decide), fun bs =>
    ⟨fun k => crcAbsorb crcInit (bs.take k), exec_crcInit s, fun k hk => ?_, ?_⟩⟩
  · simp only [exec_crcUpdate, crcAbsorb_take_succ _ hk]
    rfl
  · simp only [exec_crc16, exec_crcFinal, List.take_length, crc16]

/-- R137 (ii): the code of a bytewise sum is the sum of the codes and of the code of as many zero bytes. -/
theorem crc16_zipWith_xor {a b : Bytes} (hlen : a.length = b.length) :
    crc16 (List.zipWith (· ^^^ ·) a b) = crc16 a ^^^ crc16 b ^^^ crc16 (List.replicate a.length 0) := by
  have hsum : crcAbsorb 0 (List.zipWith (· ^^^ ·) a b) = crcAbsorb crcInit a ^^^ crcAbsorb crcInit b :=
    crcAbsorb_zipWith a b crcInit crcInit hlen
  have hinit : crcAbsorb crcInit (List.zipWith (· ^^^ ·) a b) =
      crcAbsorb 0 (List.zipWith (· ^^^ ·) a b) ^^^ crcAbsorb crcInit (List.replicate a.length 0) := by
    have := crcAbsorb_xor (List.zipWith (· ^^^ ·) a b) 0 crcInit
    simpa [hlen] using this
  rw [crc16, hinit, hsum, crcFinal_xor_right, ← crcFinal_xor_crcFinal (crcAbsorb crcInit a)]
  rfl

/-- Settles O41: the three codes observed are those of the two sequences and of the zero bytes. -/
theorem crcIsAffine : Obligations.CrcIsAffine := by
  intro s a b ca cb cz hlen ha hb hz
  obtain rfl := exec_crc16_eq_iff.1 ha
  obtain rfl := exec_crc16_eq_iff.1 hb
  obtain rfl := exec_crc16_eq_iff.1 hz
  exact exec_crc16_eq_iff.2 (crc16_zipWith_xor hlen)

/-! ### CRC.CHECK (R136) -/

/-- R136: over a blob with its trailer, the code is the residue and 16 steps of the difference of code and trailer. -/
theorem crc16_append_trailer (body : Bytes) (lo hi : Byte) :
    crc16 (body ++ [lo, hi]) = 0x0F47#16 ^^^ crcShifts 16 (crc16 body ^^^ assembleTrailer lo hi) := by
  have hresidue : crcFinal (crcShifts 16 Config.crcXorOut) = 0x0F47#16 := by decide +kernel
  have hacc : crcAbsorb crcInit body ^^^ assembleTrailer lo hi =
      Config.crcXorOut ^^^ (crc16 body ^^^ assembleTrailer lo hi) := by
    rw [crcAbsorb_crcInit, ← crcFinal_xor_left]
    exact BitVec.xor_comm _ _
  calc crc16 (body ++ [lo, hi])
      = crcFinal (crcShifts 16 (crcAbsorb crcInit body ^^^ assembleTrailer lo hi)) := by
        rw [crc16, crcAbsorb_append, ← crcUpdate_crcUpdate]
        rfl
    _ = _ := by rw [hacc, crcShifts_xor, crcFinal_xor_left, hresidue]

/-- R136: the code of the whole is the residue exactly if the trailer is the code of the rest. -/
theorem crc16_append_trailer_eq_residue_iff {body : Bytes} {lo hi : Byte} :
    crc16 (body ++ [lo, hi]) = 0x0F47#16 ↔ crc16 body = assembleTrailer lo hi := by
  rw [crc16_append_trailer]
  constructor
  · intro h
    have hsteps : crcShifts 16 (crc16 body ^^^ assembleTrailer lo hi) = 0 := by simpa using h
    exact BitVec.xor_eq_zero_iff.1 (crcShifts_eq_zero 16 hsteps)
  · intro h
    rw [h, BitVec.xor_self, show crcShifts 16 0#16 = 0#16 from crcShifts_zero 16, BitVec.xor_zero]

/-- R136: CRC.CHECK recomputes the code of all but the last two bytes and compares. -/
theorem crcCheck_eq_true_iff {blob : Bytes} (hlen : 4 ≤ blob.length) :
    crcCheck blob = true ↔ ∃ body lo hi, blob = body ++ [lo, hi] ∧ crc16 body = assembleTrailer lo hi := by
  obtain ⟨sapId, msgId, payload, lo, hi, rfl⟩ := blob_fields_of_length hlen
  rw [crcCheck_fields, beq_iff_eq]
  constructor
  · exact fun h => ⟨_, lo, hi, rfl, h⟩
  · rintro ⟨body, lo', hi', heq, h⟩
    obtain ⟨rfl, htrailer⟩ := List.append_inj' heq rfl
    cases htrailer
    exact h

/-- CRC.CHECK is the test for the residue over the whole blob (R136). -/
theorem crcCheck_eq_true_iff_residue {blob : Bytes} (hlen : 4 ≤ blob.length) :
    crcCheck blob = true ↔ crc16 blob = 0x0F47#16 := by
  obtain ⟨sapId, msgId, payload, lo, hi, rfl⟩ := blob_fields_of_length hlen
  rw [crcCheck_fields, beq_iff_eq, crc16_append_trailer_eq_residue_iff]

/-- Settles O39: both forms of the check, through what CRC16 is observed to answer. -/
theorem crcCheckIsTheResidueTest : Obligations.CrcCheckIsTheResidueTest := by
  intro s blob hlen
  refine ⟨rfl, crcCheck blob, exec_crcCheck hlen s, ?_, ?_⟩
  · simp only [crcCheck_eq_true_iff hlen, ← exec_crc16_eq_iff (s := s), assembleTrailer_eq]
    rfl
  · exact (crcCheck_eq_true_iff_residue hlen).trans exec_crc16_eq_iff.symm

/-- Settles O40: the Boolean is the free value at the blob. -/
theorem crcCheckRunsOnShortBlobs : Obligations.CrcCheckRunsOnShortBlobs :=
  fun blob hshort => ⟨Config.crcCheckShort blob, exec_crcCheck_short hshort⟩

end Sys2Proof.Machine
end

section
/-! PROOFS. The two data paths: TX_FRAME in its streaming form, RX_POLL event by event, the frame that is received after
any garbage, and the port each result leaves on (R140 to R143 of 44_pipeline.md, R159, R160, R165 of 60_exceptions.md,
R180 of 70_reset_and_hazards.md). -/

namespace Sys2Proof.Machine

open Sys2Proof.Statements

/-! ### The frame after any garbage (R141 (i), R159, R160) -/

/-- Whatever came before, the events of a packet of a blob that fits end in that blob, and the reset state is left. -/
theorem feedChunk_append_wirePacket {c : Config} (hwf : c.wf = true) (rx : RxState) (garbage : Bytes) {blob : Bytes}
    (hne : blob ≠ []) (hfits : c.fits blob.length = true) :
    ∃ es, feedChunk c rx (garbage ++ wirePacket c blob) = (RxState.reset, es ++ [.blob blob]) := by
  rw [feedChunk_append, feedChunk_wirePacket hwf _ blob hne hfits, ← List.append_assoc]
  exact ⟨_, rfl⟩

/-- Settles O45: the packet's leading `END` closes whatever the garbage left open, and its blob decodes to the Frame. -/
theorem errorsNeverStopTheStream : Obligations.ErrorsNeverStopTheStream := by
  intro s garbage sapId msgId payload W code hwf hfits hW hcode
  obtain rfl : W = wirePacket s.config (encodeBlob sapId msgId payload) :=
    Output.wire.inj (eq_of_exec_emit (exec_txFrame sapId msgId payload s) hW)
  obtain rfl : crc16 ([sapId, msgId] ++ payload) = code := exec_crc16_eq_iff.1 hcode
  obtain ⟨es, hfeed⟩ := feedChunk_append_wirePacket hwf s.rx garbage (encodeBlob_ne_nil sapId msgId payload)
    (by simpa using hfits)
  refine ⟨es.map pollEvent, ?_⟩
  rw [exec_rxPoll, hfeed]
  simp [State.receive, pollEvent, decodeBlob_encodeBlob]

/-! ### TX_FRAME (R140) -/

theorem escaped_append (c : Config) (as bs : Bytes) : escaped c (as ++ bs) = escaped c as ++ escaped c bs :=
  List.flatMap_append

/-- The packet of an encoded frame, its trailer bytes escaped one by one behind the body they were computed on. -/
theorem wirePacket_encodeBlob (c : Config) (sapId msgId : Byte) (payload : Bytes) :
    wirePacket c (encodeBlob sapId msgId payload) =
      [c.endByte] ++ escaped c ([sapId, msgId] ++ payload) ++
        escaped c [trailerLo (crc16 ([sapId, msgId] ++ payload))] ++
        escaped c [trailerHi (crc16 ([sapId, msgId] ++ payload))] ++ [c.endByte] := by
  have htrailer (lo hi : Byte) : escaped c [lo, hi] = escaped c [lo] ++ escaped c [hi] := escaped_append c [lo] [hi]
  rw [wirePacket_eq_escaped, encodeBlob_eq, escaped_append, htrailer]
  simp only [List.append_assoc]

/-- Settles O42: SEND of the encoded blob by definition, the streaming form by splitting that blob at its trailer. -/
theorem txFrameIsSendOfEncode : Obligations.TxFrameIsSendOfEncode := by
  intro s sapId msgId payload
  refine ⟨rfl, ⟨_, exec_encode sapId msgId payload s, rfl⟩, trailerLo (crc16 ([sapId, msgId] ++ payload)),
    trailerHi (crc16 ([sapId, msgId] ++ payload)), exec_crc16_eq_iff.2 ?_, ?_⟩
  · rw [← assembleTrailer_eq, assembleTrailer_lo_hi]
  · rw [exec_txFrame, wirePacket_encodeBlob]
    rfl

/-! ### RX_POLL (R141, R142) -/

/-- Settles O43: FEED and RX_POLL feed the same chunk, and each framer event has its own poll event. -/
theorem rxPollDecodesEveryBlob : Obligations.RxPollDecodesEveryBlob := by
  intro s chunk
  refine ⟨rfl, _, _, (feedChunk s.config s.rx chunk).2.map pollEvent, exec_feed chunk s, ?_, ?_,
    rxPoll_feedsChunks.exec_nil s,
    fun c₁ c₂ => ⟨_, exec_rxPoll c₁ s, rxPoll_feedsChunks.exec_append c₁ c₂ (exec_rxPoll c₁ s)⟩⟩
  · rw [exec_rxPoll, List.map_map]
    rfl
  · rw [List.forall₂_map_right_iff, List.forall₂_same]
    intro e _
    cases e with
    | blob b => exact .inl ⟨b, decodeBlob b, rfl, rfl, exec_decode b s⟩
    | drop d => exact .inr ⟨d, rfl, rfl⟩

/-! ### The ports (R143, R165, R180) -/

theorem State.rxOut_receive (s : State) (rx : RxState) (os : List Output) :
    (s.receive rx os).rxOut = s.rxOut ++ os.filter (fun o => o.port == some .rxOut) := by
  simp [State.rxOut]

theorem State.txOut_receive (s : State) (rx : RxState) (os : List Output) :
    (s.receive rx os).txOut = s.txOut ++ os.flatMap Output.wireBytes := by
  simp [State.txOut]

/-- What leaves on `rx_out` is no wire bytes. -/
theorem Output.wireBytes_of_rxOut {o : Output} (h : o.port = some .rxOut) : o.wireBytes = [] := by
  cases o with
  | wire bytes => cases h
  | _ => rfl

/-- Outputs that all leave on `rx_out` are all that leaves there, in order, and nothing leaves on `tx_out`. -/
theorem State.receive_on_rxOut (s : State) (rx : RxState) {os : List Output}
    (h : ∀ o ∈ os, o.port = some .rxOut) :
    (s.receive rx os).txOut = s.txOut ∧ (s.receive rx os).rxOut = s.rxOut ++ os := by
  rw [State.txOut_receive, State.rxOut_receive,
    List.flatMap_eq_nil_iff.2 fun o ho => Output.wireBytes_of_rxOut (h o ho),
    List.filter_eq_self.2 fun o ho => beq_iff_eq.2 (h o ho)]
  exact ⟨List.append_nil _, rfl⟩

/-- Events that each leave on `rx_out`, as the outputs of an operation. -/
theorem port_of_mem_map {out : FramerEvent → Output} (hout : ∀ e, (out e).port = some .rxOut)
    (es : List FramerEvent) : ∀ o ∈ es.map out, o.port = some .rxOut :=
  List.forall_mem_map.2 fun e _ => hout e

/-- The receive framer's operations and DECODE return nothing but outcomes and blobs on `rx_out` (R143, R165). -/
theorem exec_returns_on_rxOut {i : Instr} (hi : inPort i = some .rxIn ∨ ∃ blob, i = .decode blob) (s : State) :
    ∃ rx os, exec i s = .next (s.receive rx os) ∧ ∀ o ∈ os, o.port = some .rxOut := by
  have hframer := port_of_mem_map (out := .framer) fun _ => rfl
  rcases hi with hport | ⟨blob, rfl⟩
  · cases i with
    | rxEnd => exact ⟨_, _, exec_rxEnd s, hframer _⟩
    | rxEsc => exact ⟨_, _, exec_rxEsc s, hframer _⟩
    | rxEscEnd => exact ⟨_, _, exec_rxEscEnd s, hframer _⟩
    | rxEscEsc => exact ⟨_, _, exec_rxEscEsc s, hframer _⟩
    | rxData w => exact ⟨_, _, exec_rxData w s, hframer _⟩
    | feed chunk => exact ⟨_, _, exec_feed chunk s, hframer _⟩
    | rxPoll chunk => exact ⟨_, _, exec_rxPoll chunk s, port_of_mem_map (fun _ => rfl) _⟩
    | _ => cases hport
  · exact ⟨s.rx, [.codec (decodeBlob blob)], exec_decode blob s, by simp [Output.port]⟩

/-- A packet leaves on `tx_out` whole, behind everything before it, and nothing leaves on `rx_out`. -/
theorem State.emit_wire_on_txOut (s : State) (W : Bytes) :
    (s.emit (.wire W)).rxOut = s.rxOut ∧ (s.emit (.wire W)).txOut = s.txOut ++ W := by
  simp [State.rxOut, State.txOut, Output.port, Output.wireBytes]

/-- Settles O48: events and codec results all leave on `rx_out`, and SEND and TX_FRAME emit one packet. -/
theorem eventsAndPacketsUseTheirPorts : Obligations.EventsAndPacketsUseTheirPorts := by
  refine ⟨fun s t i _ hi hexec => ?_, fun s t hexec => ?_⟩
  · obtain ⟨rx, os, hnext, hports⟩ := exec_returns_on_rxOut hi s
    rw [hnext] at hexec
    cases hexec
    obtain ⟨htx, hrx⟩ := s.receive_on_rxOut rx hports
    exact ⟨htx, os, rfl, hrx⟩
  · obtain ⟨W, rfl⟩ : ∃ W, t = s.emit (.wire W) := by
      rcases hexec with ⟨blob, hsend⟩ | ⟨sapId, msgId, payload, hframe⟩
      · exact ⟨_, (Host.Outcome.next.inj hsend).symm⟩
      · exact ⟨_, (Host.Outcome.next.inj hframe).symm⟩
    obtain ⟨hrx, htx⟩ := s.emit_wire_on_txOut W
    exact ⟨hrx, W, rfl, htx⟩

end Sys2Proof.Machine
end

section
/-! PROOFS. What one wire byte raises, and the port every outcome leaves on (R157, R165 of 60_exceptions.md). -/

namespace Sys2Proof.Machine

open Sys2Proof.Statements

/-! ### One byte, one event (R157) -/

/-- A byte operation outputs nothing, or the one event its byte raised. -/
theorem State.receiveByte_outputs_cases (s : State) (r : ByteResult) :
    (s.receiveByte r).outputs = s.outputs ∨ ∃ e, (s.receiveByte r).outputs = s.outputs ++ [.framer e] := by
  obtain ⟨rx, ev⟩ := r
  cases ev with
  | none => exact .inl (by rw [State.receiveByte_none])
  | some e => exact .inr ⟨e, by rw [State.receiveByte_some]⟩

/-- With an escape pending and the buffer full, a substitute code overflows it, and any other byte, `END` included, is
a bad escape (R157 (ii)). -/
theorem feedByte_event_of_escaped_full {c : Config} (hwf : c.wf = true) {rx : RxState} (hm : rx.mode = .escaped)
    (hfull : c.maxBuf = some rx.buf.length) (w : Byte) :
    (feedByte c rx w).2 =
      some (.drop (if w = c.escEndByte ∨ w = c.escEscByte then .overflow else .badEscape)) := by
  by_cases hsub : w = c.escEndByte ∨ w = c.escEscByte
  · rw [if_pos hsub]
    rcases hsub with rfl | rfl
    · rw [feedByte_escEnd_of_escaped hwf hm, append_of_full _ hfull]
    · rw [feedByte_escEsc_of_escaped hwf hm, append_of_full _ hfull]
  · rw [if_neg hsub]
    obtain ⟨hescEnd, hescEsc⟩ := not_or.1 hsub
    by_cases hend : w = c.endByte
    · rw [hend, feedByte_end, rxEndStep_of_escaped hm]
    · rw [feedByte_bad_of_escaped hm hend hescEnd hescEsc, raiseDrop_event]

/-- Settles O19: a wire byte's operation is FEED's step on it, whose result holds at most one event. -/
theorem oneByteRaisesAtMostOneEvent : Obligations.OneByteRaisesAtMostOneEvent := by
  intro s t w i hwf hdec hexec
  rw [exec_of_decode_rxsym hdec hexec]
  refine ⟨s.receiveByte_outputs_cases _, fun hm hfull => ?_⟩
  exact (s.receiveByte_outputs_eq_append _ _).2 (feedByte_event_of_escaped_full hwf hm hfull w)

/-! ### The port of an outcome (R165) -/

/-- Every outcome of R150 leaves on `rx_out`, whichever operation returns it. -/
theorem port_of_isOutcome {o : Output} (h : isOutcome o = true) : o.port = some .rxOut := by
  cases o with
  | framer e => rfl
  | poll e => rfl
  | codec r => rfl
  | _ => cases h

/-- The outcomes among any outputs are those among the ones that leave on `rx_out`. -/
theorem filter_isOutcome_rxOut (os : List Output) :
    (os.filter (fun o => o.port == some .rxOut)).filter isOutcome = os.filter isOutcome := by
  rw [List.filter_filter]
  refine List.filter_congr fun o _ => ?_
  cases h : isOutcome o with
  | false => rfl
  | true => simp [port_of_isOutcome h]

/-- Settles O58: an operation adds its outputs behind those before it, and `rx_out` takes every outcome of them. -/
theorem everyOutcomeLeavesOnRxOut : Obligations.EveryOutcomeLeavesOnRxOut := by
  intro i s t _ _ _ hexec
  obtain ⟨rx, os, rfl, -⟩ := exec_next_cases hexec
  refine ⟨os, rfl, ?_⟩
  rw [State.rxOut_receive, List.filter_append, filter_isOutcome_rxOut]

end Sys2Proof.Machine
end

section
/-! PROOFS. RESET from every state, the step that runs a request and the idle step, and completion (R170, R183 of
70_reset_and_hazards.md). -/

namespace Sys2Proof.Machine

/-! ### RESET (R170) -/

theorem exec_reset (s : State) : exec .reset s = .next { s with rx := RxState.reset } := rfl

theorem exec_reset_of_exec_reset {s t : State} (h : exec .reset s = .next t) : exec .reset t = .next t := by
  rw [exec_reset] at h
  cases h
  exact exec_reset _

theorem exec_reset_rx {s t : State} (h : exec .reset s = .next t) : t.rx = RxState.reset := by
  rw [exec_reset] at h
  cases h
  rfl

/-- Settles O2: the receive state RESET leaves is the one RX.END leaves. -/
theorem resetRestoresTheResetState : Obligations.ResetRestoresTheResetState := fun s =>
  ⟨rfl, exec_reset s, fun _ => exec_reset_of_exec_reset,
    fun _ _ ht hu => (exec_rxEnd_rx hu).trans (exec_reset_rx ht).symm⟩

/-! ### Steps and completion (R183) -/

theorem step_of_inbox_nil {s : State} (hin : s.inbox = []) : step s = .next s := by
  simp [step, State.fetch, hin]

/-- Settles O51: the step finds no request. -/
theorem nothingAskedNothingChanges : Obligations.NothingAskedNothingChanges := fun _ => step_of_inbox_nil

/-- Settles O50: the step of a request that decodes. -/
theorem stepRunsTheDecodedOperation : Obligations.StepRunsTheDecodedOperation := fun _ _ _ _ => step_of_decode_ok

/-- Settles O46: the effect of an operation is a receive, which keeps the parameters and what was output. -/
theorem everyOperationCompletes : Obligations.EveryOperationCompletes := by
  intro i c rx
  obtain ⟨rx', os, hexec, -⟩ := exec_hasEffect i c rx
  exact ⟨rx', os, hexec⟩

end Sys2Proof.Machine
end
